-- ==== Sys2Proof/Word.lean ====
section
/-! DEFINITION. The word types of the block (00_scope.md R5, R6): 8-bit bytes, 16-bit header words and
accumulator, 32-bit command words, operands and read data, and the 160-bit header register. -/

namespace Sys2Proof

/-- A byte is 8 bits (R6). -/
abbrev Byte := BitVec 8

/-- A word is 16 bits (R6): one header word, ACC, IDCTR. -/
abbrev Word := BitVec 16

/-- The 32 bits of a command word, an operand or the read data (20_memory.md R51). -/
abbrev Data := BitVec 32

/-- The header register in its word view: the ten words `W[0..9]` (10_state.md R20). It is stored once, in this
view; bytes, fields and the 160-bit `hdr_out` are computed from it. -/
abbrev Header := Vector Word 10

end Sys2Proof
end

