-- ==== Sys2Proof/Syntax.lean ====
section
/-! DEFINITION. The syntax of command set version 1: the header fields, the selectors of RDF and WRF, the encoded
command, and one constructor of Instr per row of spec/opcode_table.json. -/

namespace Sys2Proof

/-- The header fields, in the order of 10_state.md R21. -/
inductive Field where
  | ver | hlen | dscp | ecn | tlen | id | flags | frag | ttl | proto | csum | src | dst
deriving DecidableEq, Repr

/-- What RDF and WRF can name (30_encoding.md R73): a header field (selectors 0 to 12), the identification counter (13)
or STATUS (14). Selector 15 names nothing and is no value of this type: the decoder rejects it. -/
inductive Selector where
  | field (f : Field)
  | idctr
  | status
deriving DecidableEq, Repr

/-- An encoded command: "a triple `(cmd, opa, opb)` of three 32-bit values captured together at acceptance"
(30_encoding.md R70). -/
structure Command where
  cmd : Data
  opa : Data
  opb : Data
deriving DecidableEq, Repr

/-- A decoded command, with the operands its opcode reads (30_encoding.md R72, R75). Operands keep their full 32 bits:
whether one fits is checked when the command executes (R78), for the answer is RANGE then. -/
inductive Instr where
  /-- NOP (42_container.md R175) -/
  | nop
  /-- SUMCLR (40_checksum.md R110) -/
  | sumclr
  /-- SUMADD w (40_checksum.md R111) -/
  | sumadd (opa : Data)
  /-- SUMRD (40_checksum.md R112) -/
  | sumrd
  /-- HCSUM (40_checksum.md R113) -/
  | hcsum
  /-- ASSIGN (40_checksum.md R114) -/
  | assign
  /-- VALID (40_checksum.md R115) -/
  | valid
  /-- RDF f (41_header_access.md R140) -/
  | rdf (sel : Selector)
  /-- WRF f, v (41_header_access.md R141) -/
  | wrf (sel : Selector) (opa : Data)
  /-- RDW i (41_header_access.md R142); the index field has 4 bits -/
  | rdw (i : Fin 16)
  /-- WRW i, w (41_header_access.md R143) -/
  | wrw (i : Fin 16) (opa : Data)
  /-- STAMP (42_container.md R171): `mf = cmd[4]`, `ttl = cmd[15:8]`, `dsz = cmd[31:16]`, `src = opa`, `dst = opb` -/
  | stamp (mf : Bool) (ttl : Byte) (dsz : Word) (src dst : Data)
  /-- DSTEQ a (42_container.md R174) -/
  | dsteq (a : Data)
deriving DecidableEq, Repr

end Sys2Proof
end

