-- ==== Sys2Proof/WellFormed.lean ====
section
/-! DEFINITION. Which instructions a legal command word can stand for (30_encoding.md R77). -/

namespace Sys2Proof

/-- WRF cannot name STATUS (30_encoding.md R73, the WRF column). -/
def Selector.writable : Selector → Bool
  | .field _ => true
  | .idctr => true
  | .status => false

/-- The instruction is one of R77's legal commands: a word index is 0 to 9 (R74), and WRF does not name STATUS.
Operand values are not restricted here: one that does not fit makes a legal command answer RANGE (R78). -/
def Instr.wellFormed : Instr → Bool
  | .nop => true
  | .sumclr => true
  | .sumadd _ => true
  | .sumrd => true
  | .hcsum => true
  | .assign => true
  | .valid => true
  | .rdf _ => true
  | .wrf sel _ => sel.writable
  | .rdw i => decide (i.val < 10)
  | .wrw i _ => decide (i.val < 10)
  | .stamp _ _ _ _ _ => true
  | .dsteq _ => true

end Sys2Proof
end

