-- ==== Sys2Proof/Decode.lean ====
section
/-! DEFINITION. The decoder, total on every command triple and rejecting by name, and after it the encoder, both written
from 30_encoding.md R71 to R77. -/

namespace Sys2Proof

/-- Why a command word is ILLEGAL (60_exceptions.md R202), in the order in which R203 makes the checks. -/
inductive Illegal where
  /-- the opcode is 0xD, 0xE or 0xF (check 1) -/
  | reservedOpcode
  /-- a bit the opcode does not use is 1 (check 2, 30_encoding.md R76) -/
  | unusedBits
  /-- RDF selector 15, WRF selector 14 or 15 (check 3) -/
  | selector
  /-- RDW or WRW index 10 to 15 (check 3) -/
  | wordIndex
deriving DecidableEq, Repr

/-- The opcodes (R72). -/
inductive Opcode where
  | nop | sumclr | sumadd | sumrd | hcsum | assign | valid | rdf | wrf | rdw | wrw | stamp | dsteq
deriving DecidableEq, Repr

/-- `op = cmd[3:0]` (R72); 0xD, 0xE and 0xF are reserved. -/
def Opcode.ofBits (op : BitVec 4) : Option Opcode :=
  match op.toNat with
  | 0x0 => some .nop
  | 0x1 => some .sumclr
  | 0x2 => some .sumadd
  | 0x3 => some .sumrd
  | 0x4 => some .hcsum
  | 0x5 => some .assign
  | 0x6 => some .valid
  | 0x7 => some .rdf
  | 0x8 => some .wrf
  | 0x9 => some .rdw
  | 0xA => some .wrw
  | 0xB => some .stamp
  | 0xC => some .dsteq
  | _ => none

/-- A field selector, `cmd[7:4]` of RDF and WRF (R73); 15 names nothing. -/
def Selector.ofBits (sel : BitVec 4) : Option Selector :=
  match sel.toNat with
  | 0 => some (.field .ver)
  | 1 => some (.field .hlen)
  | 2 => some (.field .dscp)
  | 3 => some (.field .ecn)
  | 4 => some (.field .tlen)
  | 5 => some (.field .id)
  | 6 => some (.field .flags)
  | 7 => some (.field .frag)
  | 8 => some (.field .ttl)
  | 9 => some (.field .proto)
  | 10 => some (.field .csum)
  | 11 => some (.field .src)
  | 12 => some (.field .dst)
  | 13 => some .idctr
  | 14 => some .status
  | _ => none

/-- R76: every bit the opcode does not use is 0. -/
def Opcode.unusedClear (op : Opcode) (cmd : Data) : Bool :=
  match op with
  | .nop | .sumclr | .sumadd | .sumrd | .hcsum | .assign | .valid | .dsteq => cmd.extractLsb' 4 28 == 0
  | .rdf | .wrf | .rdw | .wrw => cmd.extractLsb' 8 24 == 0
  | .stamp => cmd.extractLsb' 5 3 == 0

/-- A decoded instruction if the check of R203 (3) holds for it, else the named rejection. -/
def accept (why : Illegal) (i : Instr) : Except Illegal Instr :=
  if i.wellFormed then .ok i else .error why

/-- The command word's fields of R71 taken apart, for an opcode whose unused bits are 0. -/
def decodeOperands (op : Opcode) (c : Command) : Except Illegal Instr :=
  match op with
  | .nop => .ok .nop
  | .sumclr => .ok .sumclr
  | .sumadd => .ok (.sumadd c.opa)
  | .sumrd => .ok .sumrd
  | .hcsum => .ok .hcsum
  | .assign => .ok .assign
  | .valid => .ok .valid
  | .rdf =>
    match Selector.ofBits (c.cmd.extractLsb' 4 4) with
    | some sel => .ok (.rdf sel)
    | none => .error .selector
  | .wrf =>
    match Selector.ofBits (c.cmd.extractLsb' 4 4) with
    | some sel => accept .selector (.wrf sel c.opa)
    | none => .error .selector
  | .rdw => accept .wordIndex (.rdw (c.cmd.extractLsb' 4 4).toFin)
  | .wrw => accept .wordIndex (.wrw (c.cmd.extractLsb' 4 4).toFin c.opa)
  | .stamp =>
    .ok (.stamp (c.cmd.getLsbD 4) (c.cmd.extractLsb' 8 8) (c.cmd.extractLsb' 16 16) c.opa c.opb)
  | .dsteq => .ok (.dsteq c.opa)

/-- Decode a command, in the order of checks of 60_exceptions.md R203 (1) to (3). Total: every command triple gives an
instruction or the name of why it is ILLEGAL (30_encoding.md R79). -/
def decode (c : Command) : Except Illegal Instr :=
  match Opcode.ofBits (c.cmd.extractLsb' 0 4) with
  | none => .error .reservedOpcode
  | some op => if op.unusedClear c.cmd then decodeOperands op c else .error .unusedBits

/-- The opcode's number (R72). -/
def Opcode.number : Opcode → Nat
  | .nop => 0x0
  | .sumclr => 0x1
  | .sumadd => 0x2
  | .sumrd => 0x3
  | .hcsum => 0x4
  | .assign => 0x5
  | .valid => 0x6
  | .rdf => 0x7
  | .wrf => 0x8
  | .rdw => 0x9
  | .wrw => 0xA
  | .stamp => 0xB
  | .dsteq => 0xC

/-- The selector's number (R73). -/
def Selector.number : Selector → Nat
  | .field .ver => 0
  | .field .hlen => 1
  | .field .dscp => 2
  | .field .ecn => 3
  | .field .tlen => 4
  | .field .id => 5
  | .field .flags => 6
  | .field .frag => 7
  | .field .ttl => 8
  | .field .proto => 9
  | .field .csum => 10
  | .field .src => 11
  | .field .dst => 12
  | .idctr => 13
  | .status => 14

/-- A command word of an opcode that uses no bit but its own (R76, first line). -/
def plainWord (op : Opcode) : Data := BitVec.ofNat 32 op.number

/-- A command word with a selector or an index in `cmd[7:4]` (R76, second line). -/
def selWord (op : Opcode) (sel : Nat) : Data := BitVec.ofNat 32 (sel * 2 ^ 4 + op.number)

/-- STAMP's command word: `dsz` from bit 16, `ttl` from bit 8, `mf` in bit 4 (R71; 42_container.md R171). -/
def stampWord (mf : Bool) (ttl : Byte) (dsz : Word) : Data :=
  BitVec.ofNat 32 (dsz.toNat * 2 ^ 16 + ttl.toNat * 2 ^ 8 + mf.toNat * 2 ^ 4 + Opcode.stamp.number)

/-- The encoder: the command an instruction stands for, with 0 in every operand the opcode ignores (R82, "A `-` means the
assembler puts 0 there"). -/
def encode : Instr → Command
  | .nop => ⟨plainWord .nop, 0, 0⟩
  | .sumclr => ⟨plainWord .sumclr, 0, 0⟩
  | .sumadd opa => ⟨plainWord .sumadd, opa, 0⟩
  | .sumrd => ⟨plainWord .sumrd, 0, 0⟩
  | .hcsum => ⟨plainWord .hcsum, 0, 0⟩
  | .assign => ⟨plainWord .assign, 0, 0⟩
  | .valid => ⟨plainWord .valid, 0, 0⟩
  | .rdf sel => ⟨selWord .rdf sel.number, 0, 0⟩
  | .wrf sel opa => ⟨selWord .wrf sel.number, opa, 0⟩
  | .rdw i => ⟨selWord .rdw i.val, 0, 0⟩
  | .wrw i opa => ⟨selWord .wrw i.val, opa, 0⟩
  | .stamp mf ttl dsz src dst => ⟨stampWord mf ttl dsz, src, dst⟩
  | .dsteq a => ⟨plainWord .dsteq, a, 0⟩

/-- The command whose 96 bits, numbered as spec/opcode_table.json numbers them, are `w`: `cmd` in bits 31..0, then `opa`
in bits 63..32 and `opb` in bits 95..64 (log entry 9). -/
def Command.ofNat (w : Nat) : Command :=
  ⟨BitVec.ofNat 32 w, BitVec.ofNat 32 (w / 2 ^ 32), BitVec.ofNat 32 (w / 2 ^ 64)⟩

/-- The command of the low `nbits` bits of `w`, every bit above them 0. -/
def Command.ofTableWord (nbits w : Nat) : Command := Command.ofNat (w % 2 ^ nbits)

/-- The instruction the decoder reads from a table word; none where it rejects it. -/
def decodeTableWord (nbits w : Nat) : Option Instr :=
  match decode (Command.ofTableWord nbits w) with
  | .ok i => some i
  | .error _ => none

end Sys2Proof
end

