-- ==== Sys2Proof/Config.lean ====
section
/-! DEFINITION. The parameters of the block (00_scope.md R5) and the free values the spec leaves open. The opaque
constants have no body: nothing can be proved about which value they have. -/

namespace Sys2Proof

/-- `PACKET_SIZE` (S): the total packet size of the container the block stamps for, "integer with 20 ≤ S ≤ 65535"
(R5). A size outside the range cannot be configured (92_eei_decisions.md D11), so it is no value of this type. -/
structure PacketSize where
  bytes : Nat
  atLeast : 20 ≤ bytes
  atMost : bytes ≤ 65535
deriving DecidableEq, Repr

/-- `CMD_LATENCY`: cycles from the acceptance of a command to its response, "integer ≥ 1" (R5). -/
structure Latency where
  cycles : Nat
  atLeast : 1 ≤ cycles
deriving DecidableEq, Repr

/-- How far the machine's `PACKET_SIZE` lies above 20. Free: log entry 4. -/
opaque Config.packetSizeOver20 : Fin 65516

/-- The `PACKET_SIZE` that State.reset has: some size of the range of R5, not known which (log entry 4). -/
def Config.packetSize : PacketSize :=
  ⟨20 + Config.packetSizeOver20.val, by omega, by omega⟩

/-- How far the machine's `CMD_LATENCY` lies above 1. Free: log entry 6. -/
opaque Config.cmdLatencyOver1 : Nat

/-- The `CMD_LATENCY` of the configured machine: some integer ≥ 1, not known which (log entry 6). -/
def Config.cmdLatency : Latency :=
  ⟨Config.cmdLatencyOver1 + 1, by omega⟩

/-- `HDR_INIT` (R5, 70_reset_and_hazards.md R231): the 160 bits the header register holds after the n-th reset (n = 0
is State.reset). Free, a fresh draw at each reset: log entry 5. -/
opaque Config.hdrInit : Nat → BitVec 160

/-- `ID_INIT` (R5, 70_reset_and_hazards.md R231): the value of IDCTR after the n-th reset. Free: log entry 5. -/
opaque Config.idInit : Nat → Word

end Sys2Proof
end

