-- ==== Sys2Proof/Machine/State.lean ====
section
/-! DEFINITION. The state of the block (10_state.md): the header register, ACC, IDCTR and STATUS, with the response port's
outputs, the host's coming actions and the machine's argument PACKET_SIZE; the reasons a step can stop; reset. -/

namespace Sys2Proof.Machine

/-- STATUS (R28): four named bits, read as one 4-bit word by RDF STATUS (`Status.toBits`) and written by no command as a
word. -/
structure Status where
  /-- bit 0, V: the result of the most recent VALID -/
  v : Bool
  /-- bit 1, ILL: sticky, some command since reset ended with ILLEGAL -/
  ill : Bool
  /-- bit 2, RNG: sticky, some command since reset ended with RANGE -/
  rng : Bool
  /-- bit 3, CAP: sticky, some command since reset ended with CAPACITY -/
  cap : Bool
deriving DecidableEq, Repr

/-- The response codes of 60_exceptions.md R200. -/
inductive RspCode where
  | ok | illegal | range | capacity
deriving DecidableEq, Repr

/-- What the response port shows while `rsp_valid` is high (20_memory.md R51). -/
structure Response where
  data : Data
  code : RspCode
deriving DecidableEq, Repr

/-- One action of the host at the command port, seen command by command (70_reset_and_hazards.md R239; log entries 1, 2). -/
inductive HostEvent where
  /-- `cmd_valid` is low: no command is presented (20_memory.md R52) -/
  | idle
  /-- a command is presented, accepted and completed -/
  | command (c : Command)
  /-- `rst` is high at a clock edge (70_reset_and_hazards.md R230) -/
  | reset
deriving DecidableEq, Repr

/-- The machine's state. The first four fields are the spec's "four registers". -/
structure State where
  /-- the header register (R20) -/
  hdr : Header
  /-- ACC (R26) -/
  acc : Word
  /-- IDCTR (R27) -/
  idctr : Word
  /-- STATUS (R28) -/
  status : Status
  /-- the response port: `none` while `rsp_valid` is low (20_memory.md R51; log entry 3) -/
  rsp : Option Response
  /-- PACKET_SIZE, the parameter the machine is built with, an argument that no step changes (log entry 4) -/
  packetSize : PacketSize
  /-- what the host does next, the nearest action first (log entry 2) -/
  port : List HostEvent
  /-- the model's own counter of resets, which makes each draw of HDR_INIT and ID_INIT a fresh one (log entry 5) -/
  resetCount : Nat
deriving DecidableEq, Repr

/-- Nothing stops this machine: "The block never halts or locks up on an error" (60_exceptions.md R209), and every error
is a response code (R200), so there is no fault. No definition raises one. Safe. -/
inductive Fault
deriving DecidableEq, Repr

/-- Why the model has no meaning for an instruction. -/
inductive Refusal where
  /-- raised by an arm of `exec` for an instruction of the table that has no meaning yet; no arm does so. Safe. -/
  | notModelled (mnemonic : String)
deriving DecidableEq, Repr

/-- The words of the 160-bit header value `b`, `B[0]` in bits 159:152 (10_state.md R20; 20_memory.md R51 `hdr_out`). -/
def headerOfBits (b : BitVec 160) : Header :=
  Vector.ofFn fun i => b.extractLsb' (144 - 16 * i.val) 16

/-- The state after reset, for any HDR_INIT and ID_INIT: "A model takes `HDR_INIT` and `ID_INIT` as free inputs"
(70_reset_and_hazards.md R231). `n` counts the resets, `port` is what the host does afterwards. -/
def State.resetWith (hdrInit : BitVec 160) (idInit : Word) (size : PacketSize) (port : List HostEvent) (n : Nat) :
    State where
  hdr := headerOfBits hdrInit
  acc := 0
  idctr := idInit
  status := ⟨false, false, false, false⟩
  rsp := none
  packetSize := size
  port := port
  resetCount := n

/-- The machine right after its first reset (R230, R231): the header register and IDCTR hold the free draws, everything
else is 0, no response is shown, and the host has presented nothing yet. -/
def State.reset : State :=
  State.resetWith (Config.hdrInit 0) (Config.idInit 0) Config.packetSize [] 0

end Sys2Proof.Machine
end

