-- ==== Sys2Proof/Machine/Flags.lean ====
section
/-! DEFINITION. The STATUS bits (10_state.md R28) and the codes of a response (60_exceptions.md R200). -/

namespace Sys2Proof.Machine

/-- The codes that report an error (R200). -/
inductive ErrorCode where
  | illegal | range | capacity
deriving DecidableEq, Repr

/-- The response code of an error. -/
def ErrorCode.code : ErrorCode → RspCode
  | .illegal => .illegal
  | .range => .range
  | .capacity => .capacity

/-- `rsp_code` as the two bits on the port (R200). -/
def RspCode.toBits : RspCode → BitVec 2
  | .ok => 0
  | .illegal => 1
  | .range => 2
  | .capacity => 3

/-- STATUS as RDF STATUS reads it: V in bit 0, ILL in bit 1, RNG in bit 2, CAP in bit 3 (R28). -/
def Status.toBits (st : Status) : BitVec 4 :=
  BitVec.ofBool st.cap ++ BitVec.ofBool st.rng ++ BitVec.ofBool st.ill ++ BitVec.ofBool st.v

/-- An error sets its own sticky bit and no other (R28, 60_exceptions.md R201). -/
def Status.record (e : ErrorCode) (st : Status) : Status :=
  match e with
  | .illegal => { st with ill := true }
  | .range => { st with rng := true }
  | .capacity => { st with cap := true }

/-- VALID sets V to its result (R28). -/
def Status.setV (v : Bool) (st : Status) : Status := { st with v := v }

/-- The sticky bit of an error. -/
def Status.sticky (e : ErrorCode) (st : Status) : Bool :=
  match e with
  | .illegal => st.ill
  | .range => st.rng
  | .capacity => st.cap

end Sys2Proof.Machine
end

