-- ==== Sys2Proof/Machine/Operands.lean ====
section
/-! DEFINITION. Operand forms: the widths and places of the header fields (10_state.md R21), the operand range checks
(30_encoding.md R78), zero extension, and the payload capacity (42_container.md R170). -/

namespace Sys2Proof.Machine

/-- Where a field stands in the header: some bits of one word, or two whole words (R21). -/
inductive Place where
  /-- `W[word][lo + width - 1 : lo]` -/
  | part (word : Fin 10) (lo width : Nat)
  /-- `W[hi] ++ W[lo]` -/
  | pair (hi lo : Fin 10)
deriving DecidableEq, Repr

/-- R21's column "word and bits". -/
def fieldPlace : Field → Place
  | .ver => .part 0 12 4
  | .hlen => .part 0 8 4
  | .dscp => .part 0 2 6
  | .ecn => .part 0 0 2
  | .tlen => .part 1 0 16
  | .id => .part 2 0 16
  | .flags => .part 3 13 3
  | .frag => .part 3 0 13
  | .ttl => .part 4 8 8
  | .proto => .part 4 0 8
  | .csum => .part 5 0 16
  | .src => .pair 6 7
  | .dst => .pair 8 9

/-- The width of what a selector names: `width(sel)`, the width column of 30_encoding.md R73. -/
def selectorWidth : Selector → Nat
  | .field .ver => 4
  | .field .hlen => 4
  | .field .dscp => 6
  | .field .ecn => 2
  | .field .tlen => 16
  | .field .id => 16
  | .field .flags => 3
  | .field .frag => 13
  | .field .ttl => 8
  | .field .proto => 8
  | .field .csum => 16
  | .field .src => 32
  | .field .dst => 32
  | .idctr => 16
  | .status => 4

/-- `opa[31:16] = 0`: the operand of SUMADD and WRW fits a word (R78). -/
def fitsWord (opa : Data) : Bool := opa.extractLsb' 16 16 == 0

/-- `opa < 2^width(sel)`: the operand of WRF fits what it is written to (R78). -/
def fitsSelector (sel : Selector) (opa : Data) : Bool := decide (opa.toNat < 2 ^ selectorWidth sel)

/-- `opa[15:0]`, the word of SUMADD and WRW. -/
def lowWord (d : Data) : Word := d.extractLsb' 0 16

/-- `d[31:16]`. -/
def highWord (d : Data) : Word := d.extractLsb' 16 16

/-- `zext_32` of a word (00_scope.md R6). -/
def zextWord (w : Word) : Data := w.setWidth 32

/-- `zext_32` of one bit. -/
def zextBit (b : Bool) : Data := if b then 1 else 0

/-- `PAYLOAD_CAP`: `P = floor((S - 20) / 8) * 8` (42_container.md R170). -/
def payloadCap (size : PacketSize) : Nat := (size.bytes - 20) / 8 * 8

end Sys2Proof.Machine
end

