-- ==== Sys2Proof/Machine/Ops.lean ====
section
/-! DEFINITION. The named operations the meanings are made of: the state access primitives of 00_scope.md R7, the
one's-complement arithmetic of 40_checksum.md section 1, the response, and taking an error. -/

namespace Sys2Proof.Machine

/-! ## Views of the header register (10_state.md R20 to R23) -/

/-- `B[j]`: `B[2i] = W[i][15:8]` and `B[2i+1] = W[i][7:0]` (R20). -/
def headerByte (h : Header) (j : Fin 20) : Byte :=
  let w := h[j.val / 2]
  if j.val % 2 = 0 then w.extractLsb' 8 8 else w.extractLsb' 0 8

/-- The header register as 160 bits, `B[0]` in bits 159:152 down to `B[19]` in bits 7:0 (20_memory.md R51). -/
def headerBits (h : Header) : BitVec 160 :=
  h[0] ++ h[1] ++ h[2] ++ h[3] ++ h[4] ++ h[5] ++ h[6] ++ h[7] ++ h[8] ++ h[9]

/-- The `hdr_out` port (20_memory.md R53). -/
def State.hdrOut (s : State) : BitVec 160 := headerBits s.hdr

/-- Bits `lo + width - 1 .. lo` of a word, zero-extended to 32 bits. -/
def readBits (w : Word) (lo width : Nat) : Data := (w.extractLsb' lo width).setWidth 32

/-- A word of `width` ones. -/
def lowMask (width : Nat) : Word := BitVec.ofNat 16 (2 ^ width - 1)

/-- The word with bits `lo + width - 1 .. lo` replaced by the low bits of `v`, every other bit kept. -/
def insertBits (w : Word) (lo width : Nat) (v : Word) : Word :=
  (w &&& ~~~(lowMask width <<< lo)) ||| ((v &&& lowMask width) <<< lo)

/-- `F(name)`, zero-extended (00_scope.md R7; the bits of 10_state.md R21). -/
def getField (h : Header) (f : Field) : Data :=
  match fieldPlace f with
  | .part i lo width => readBits h[i] lo width
  | .pair hi lo => h[hi] ++ h[lo]

/-- `F(name) <- v`: "writes those bits and no others" (00_scope.md R7). A pair takes `v[31:16]` into its first word
(41_header_access.md R141). -/
def setField (h : Header) (f : Field) (v : Data) : Header :=
  match fieldPlace f with
  | .part i lo width => h.set i (insertBits h[i] lo width (lowWord v))
  | .pair hi lo => (h.set hi (highWord v)).set lo (lowWord v)

/-! ## One's-complement arithmetic (40_checksum.md R100, R102) -/

/-- `ocadd`: 16-bit wraparound addition, then 1 more if the result is less than the accumulator before (R100). -/
def ocadd (a w : Word) : Word :=
  let t := a + w
  if t < a then t + 1 else t

/-- `ocsum`: the fold of `ocadd` from 0 over a sequence of words (R102). -/
def ocsum (ws : List Word) : Word := ws.foldl ocadd 0

/-- `ocsum(W)`: the sum of the ten header words, in order (R102). -/
def headerSum (h : Header) : Word := ocsum h.toList

/-- "zeroes the checksum field, recomputes over all words including the zeroed field, and stores the result" (R114; also
the last lines of 42_container.md R171): the header with its new checksum, and the raw sum. -/
def assignChecksum (h : Header) : Header × Word :=
  let zeroed := setField h .csum 0
  let sum := headerSum zeroed
  (setField zeroed .csum (zextWord (~~~sum)), sum)

/-! ## Ending a command (00_scope.md R7) -/

/-- `respond(d, OK)`. -/
def respond (d : Data) (s : State) : State := { s with rsp := some ⟨d, .ok⟩ }

/-- `raise Error(e)` (60_exceptions.md R201), the one way a command takes an error: the matching sticky bit is set, the
response is `respond(0, e)`, and no header bit, not ACC, not IDCTR and not STATUS.V changes. There is no return from an
error: the block accepts the next command as usual (R201, R208). -/
def raiseError (e : ErrorCode) (s : State) : State :=
  { s with status := s.status.record e, rsp := some ⟨0, e.code⟩ }

/-! ## The command port -/

/-- `rsp_valid` is "high for exactly one cycle when a command completes" (20_memory.md R51). -/
def clearResponse (s : State) : State := { s with rsp := none }

/-- Reset (70_reset_and_hazards.md R230, R231): every register takes its reset value. Each reset draws HDR_INIT and
ID_INIT anew (log entry 5). -/
def applyReset (s : State) : State :=
  State.resetWith (Config.hdrInit (s.resetCount + 1)) (Config.idInit (s.resetCount + 1)) s.packetSize s.port
    (s.resetCount + 1)

/-- The host's next action, and the state with that action taken off the list. A host whose list is empty presents
nothing (log entry 2). -/
def takeEvent (s : State) : HostEvent × State :=
  match s.port with
  | [] => (.idle, s)
  | e :: rest => (e, { s with port := rest })

/-- The state in which the host presents `c` as its very next action. -/
def presentCommand (c : Command) (s : State) : State := { s with port := .command c :: s.port }

end Sys2Proof.Machine
end

