-- ==== Sys2Proof/Machine/Checksum.lean ====
section
/-! DEFINITION. The checksum commands (40_checksum.md): SUMCLR, SUMADD, SUMRD, HCSUM, ASSIGN, VALID. -/

namespace Sys2Proof.Machine

/-- SUMCLR (R110): `ACC <- 0; respond(0, OK)`. -/
def execSumclr (s : State) : Host.Outcome State Fault Refusal :=
  .next (respond 0 { s with acc := 0 })

/-- SUMADD (R111): RANGE if `opa[31:16] ≠ 0`, else `ACC <- ocadd(ACC, opa[15:0])` and the new ACC is the answer. -/
def execSumadd (opa : Data) (s : State) : Host.Outcome State Fault Refusal :=
  .next <|
    if fitsWord opa then
      let sum := ocadd s.acc (lowWord opa)
      respond (zextWord sum) { s with acc := sum }
    else raiseError .range s

/-- SUMRD (R112): `respond(ACC ++ ~ACC, OK)`. -/
def execSumrd (s : State) : Host.Outcome State Fault Refusal :=
  .next (respond (s.acc ++ ~~~s.acc) s)

/-- HCSUM (R113): `ACC <- ocsum(W); respond(zext_32(~ACC), OK)`. -/
def execHcsum (s : State) : Host.Outcome State Fault Refusal :=
  let sum := headerSum s.hdr
  .next (respond (zextWord (~~~sum)) { s with acc := sum })

/-- ASSIGN (R114): the header's checksum is computed with the field zeroed, stored and answered; ACC holds the raw sum. -/
def execAssign (s : State) : Host.Outcome State Fault Refusal :=
  let r := assignChecksum s.hdr
  .next (respond (getField r.1 .csum) { s with hdr := r.1, acc := r.2 })

/-- VALID (R115): `ACC <- ocsum(W)`, V and the answer say whether it is 0xFFFF; a mismatch is no error (60 R206). -/
def execValid (s : State) : Host.Outcome State Fault Refusal :=
  let sum := headerSum s.hdr
  let v := sum == 0xFFFF#16
  .next (respond (zextBit v) { s with acc := sum, status := s.status.setV v })

end Sys2Proof.Machine
end

