-- ==== Sys2Proof/Machine/Container.lean ====
section
/-! DEFINITION. The packet container's header operations (42_container.md): STAMP, DSTEQ, NOP. -/

namespace Sys2Proof.Machine

/-- The bit of `cmd[4]` as W[3][13], FLAGS[0] (R171; 10_state.md R23): every other bit of the word is kept. -/
def setMoreFragments (h : Header) (mf : Bool) : Header :=
  h.set 3 (insertBits h[3] 13 1 (if mf then 1 else 0))

/-- The field writes of STAMP before the checksum, in the order of R171. -/
def stampFields (mf : Bool) (ttl : Byte) (dsz : Word) (src dst : Data) (idctr : Word) (h : Header) : Header :=
  let h := setField h .ttl (ttl.setWidth 32)
  let h := setField h .src src
  let h := setField h .dst dst
  let h := setField h .tlen (zextWord (20 + dsz))
  let h := setField h .id (zextWord idctr)
  setMoreFragments h mf

/-- STAMP (R171): CAPACITY if `dsz > P`, with nothing changed; else the per-packet fields, the identification counter and
the checksum, in one atomic step. -/
def execStamp (mf : Bool) (ttl : Byte) (dsz : Word) (src dst : Data) (s : State) : Host.Outcome State Fault Refusal :=
  .next <|
    if payloadCap s.packetSize < dsz.toNat then raiseError .capacity s
    else
      let r := assignChecksum (stampFields mf ttl dsz src dst s.idctr s.hdr)
      respond (lowWord (getField r.1 .id) ++ lowWord (getField r.1 .csum))
        { s with hdr := r.1, acc := r.2, idctr := s.idctr + 1 }

/-- DSTEQ (R174): whether DST equals the operand; a mismatch is no error (60_exceptions.md R207). -/
def execDsteq (a : Data) (s : State) : Host.Outcome State Fault Refusal :=
  .next (respond (zextBit (getField s.hdr .dst == a)) s)

/-- NOP (R175): `respond(0, OK)`. -/
def execNop (s : State) : Host.Outcome State Fault Refusal :=
  .next (respond 0 s)

end Sys2Proof.Machine
end

