-- ==== Sys2Proof/Machine/HeaderAccess.lean ====
section
/-! DEFINITION. The header bit-packer commands (41_header_access.md): RDF, WRF, RDW, WRW. -/

namespace Sys2Proof.Machine

/-- What RDF reads, zero-extended (R140): a header field, IDCTR or STATUS. -/
def readSelector (sel : Selector) (s : State) : Data :=
  match sel with
  | .field f => getField s.hdr f
  | .idctr => zextWord s.idctr
  | .status => s.status.toBits.setWidth 32

/-- What WRF writes (R141): a header field or IDCTR; STATUS is written by no command (10_state.md R28). -/
def writeSelector (sel : Selector) (v : Data) (s : State) : State :=
  match sel with
  | .field f => { s with hdr := setField s.hdr f v }
  | .idctr => { s with idctr := lowWord v }
  | .status => s

/-- RDF (R140). Selector 15 never gets here: the decoder rejects it. -/
def execRdf (sel : Selector) (s : State) : Host.Outcome State Fault Refusal :=
  .next (respond (readSelector sel s) s)

/-- WRF (R141): ILLEGAL for STATUS, else RANGE if the value does not fit, else the write. -/
def execWrf (sel : Selector) (opa : Data) (s : State) : Host.Outcome State Fault Refusal :=
  .next <|
    if sel.writable then
      if fitsSelector sel opa then respond 0 (writeSelector sel opa s) else raiseError .range s
    else raiseError .illegal s

/-- RDW (R142): ILLEGAL for an index of 10 or more. -/
def execRdw (i : Fin 16) (s : State) : Host.Outcome State Fault Refusal :=
  .next <|
    if h : i.val < 10 then respond (zextWord s.hdr[i.val]) s else raiseError .illegal s

/-- WRW (R143): ILLEGAL for an index of 10 or more, else RANGE if `opa[31:16] ≠ 0`, else `W[i] <- opa[15:0]`. -/
def execWrw (i : Fin 16) (opa : Data) (s : State) : Host.Outcome State Fault Refusal :=
  .next <|
    if h : i.val < 10 then
      if fitsWord opa then respond 0 { s with hdr := s.hdr.set i.val (lowWord opa) } else raiseError .range s
    else raiseError .illegal s

end Sys2Proof.Machine
end

