-- ==== Sys2Proof/Machine/Dispatch.lean ====
section
/-! DEFINITION. exec: one arm per instruction, each one call of its meaning. -/

namespace Sys2Proof.Machine

def exec (i : Instr) (s : State) : Host.Outcome State Fault Refusal :=
  match i with
  | .nop => Sys2Proof.Machine.execNop s
  | .sumclr => Sys2Proof.Machine.execSumclr s
  | .sumadd opa => Sys2Proof.Machine.execSumadd opa s
  | .sumrd => Sys2Proof.Machine.execSumrd s
  | .hcsum => Sys2Proof.Machine.execHcsum s
  | .assign => Sys2Proof.Machine.execAssign s
  | .valid => Sys2Proof.Machine.execValid s
  | .rdf sel => Sys2Proof.Machine.execRdf sel s
  | .wrf sel opa => Sys2Proof.Machine.execWrf sel opa s
  | .rdw idx => Sys2Proof.Machine.execRdw idx s
  | .wrw idx opa => Sys2Proof.Machine.execWrw idx opa s
  | .stamp mf ttl dsz src dst => Sys2Proof.Machine.execStamp mf ttl dsz src dst s
  | .dsteq a => Sys2Proof.Machine.execDsteq a s

end Sys2Proof.Machine
end

