-- ==== Sys2Proof/Machine/Port.lean ====
section
/-! DEFINITION. The command port, command by command (20_memory.md R52, 70_reset_and_hazards.md R239): what one action of
the host does to the block. -/

namespace Sys2Proof.Machine

/-- One whole command: decoded and executed, or ended with ILLEGAL if its word is not a legal command
(60_exceptions.md R202, R203). -/
def runCommand (c : Command) (s : State) : Host.Outcome State Fault Refusal :=
  match decode c with
  | .ok i => exec i s
  | .error _ => .next (raiseError .illegal s)

/-- One action of the host: no command ("While `cmd_valid` is low the block does nothing and its state does not change",
R52, and no response is shown), a command, or reset. -/
def runEvent (e : HostEvent) (s : State) : Host.Outcome State Fault Refusal :=
  match e with
  | .idle => .next (clearResponse s)
  | .command c => runCommand c s
  | .reset => .next (applyReset s)

/-- Take the host's next action and carry it out. -/
def runPort (s : State) : Host.Outcome State Fault Refusal :=
  runEvent (takeEvent s).1 (takeEvent s).2

end Sys2Proof.Machine
end

