-- ==== Sys2Proof/Machine/Step.lean ====
section
/-! DEFINITION. One step of the machine: the host's next action at the command port, carried out whole ("it steps one whole
command at a time", 70_reset_and_hazards.md R239). -/

namespace Sys2Proof.Machine

/-- One step. -/
def step (s : State) : Host.Outcome State Fault Refusal := runPort s

/-- The block fetches nothing (10_state.md R30): the host presents the command. This is `s` with the host presenting the
command of the table word as its very next action (log entry 2). -/
def State.withFetchWord (s : State) (nbits w : Nat) : State :=
  presentCommand (Command.ofTableWord nbits w) s

end Sys2Proof.Machine
end

