-- ==== Sys2Proof/Machine/Assembler.lean ====
section
/-! DEFINITION. This spec's assembly language (30_encoding.md R82, R83): the lines, the assembler, the expansion of the
pseudo-instructions, and the reading of a line of text. The block never sees any of it: the host's tool does. -/

namespace Sys2Proof.Machine

/-- One line of R82's table, its numbers as written. RDF and WRF hold the selector number of the field's name. -/
inductive AsmLine where
  | nop | sumclr
  | sumadd (w : Nat)
  | sumrd | hcsum | assign | valid
  | rdf (f : Nat)
  | wrf (f v : Nat)
  | rdw (i : Nat)
  | wrw (i w : Nat)
  | stamp (t m n s d : Nat)
  | dsteq (a : Nat)
deriving DecidableEq, Repr

/-- The pseudo-instructions of R83. -/
inductive Pseudo where
  | ldhdr (ws : Vector Nat 10)
  | clrhdr
  | csum (ws : List Nat)
deriving DecidableEq, Repr

/-- A command whose word is `cmd`, if its operands are 32-bit numbers (log entry 11). -/
def asmCommand (cmd opa opb : Nat) : Option Command :=
  if opa < 2 ^ 32 ∧ opb < 2 ^ 32 then some ⟨BitVec.ofNat 32 cmd, BitVec.ofNat 32 opa, BitVec.ofNat 32 opb⟩ else none

/-- The assembler (R82): "refuses a line whose numbers do not fit the command word's fields (`i` > 15, `t` > 255,
`m` > 1, `n` > 65535)"; it does not refuse what the block itself reports as ILLEGAL or RANGE. -/
def assemble : AsmLine → Option Command
  | .nop => asmCommand 0x0 0 0
  | .sumclr => asmCommand 0x1 0 0
  | .sumadd w => asmCommand 0x2 w 0
  | .sumrd => asmCommand 0x3 0 0
  | .hcsum => asmCommand 0x4 0 0
  | .assign => asmCommand 0x5 0 0
  | .valid => asmCommand 0x6 0 0
  | .rdf f => if f ≤ 15 then asmCommand (f <<< 4 ||| 0x7) 0 0 else none
  | .wrf f v => if f ≤ 15 then asmCommand (f <<< 4 ||| 0x8) v 0 else none
  | .rdw i => if i ≤ 15 then asmCommand (i <<< 4 ||| 0x9) 0 0 else none
  | .wrw i w => if i ≤ 15 then asmCommand (i <<< 4 ||| 0xA) w 0 else none
  | .stamp t m n s d =>
    if t ≤ 255 ∧ m ≤ 1 ∧ n ≤ 65535 then asmCommand (n <<< 16 ||| t <<< 8 ||| m <<< 4 ||| 0xB) s d else none
  | .dsteq a => asmCommand 0xC a 0

/-- The lines a pseudo-instruction stands for, in order (R83). -/
def expand : Pseudo → List AsmLine
  | .ldhdr ws => ws.toList.zipIdx.map fun p => .wrw p.2 p.1
  | .clrhdr => (List.range 10).map fun i => .wrw i 0
  | .csum ws => .sumclr :: (ws.map AsmLine.sumadd ++ [.sumrd])

/-- A dotted quad `a.b.c.d`: `a << 24 | b << 16 | c << 8 | d` (R82, 10_state.md R22). -/
def dottedQuad (a b c d : Nat) : Nat := a <<< 24 ||| b <<< 16 ||| c <<< 8 ||| d

/-! ## Reading a line of text -/

/-- The pieces of a text between separators. -/
def splitAtChar (sep : Char) : List Char → List (List Char)
  | [] => [[]]
  | c :: cs =>
    if c = sep then [] :: splitAtChar sep cs
    else
      match splitAtChar sep cs with
      | [] => [[c]]
      | piece :: rest => (c :: piece) :: rest

/-- The text without the blanks before it and after it. -/
def trimBlanks (cs : List Char) : List Char :=
  ((cs.dropWhile (· == ' ')).reverse.dropWhile (· == ' ')).reverse

/-- The value of a digit in the given base. -/
def digitValue (base : Nat) (c : Char) : Option Nat :=
  let v :=
    if '0' ≤ c ∧ c ≤ '9' then c.toNat - '0'.toNat
    else if 'a' ≤ c ∧ c ≤ 'f' then c.toNat - 'a'.toNat + 10
    else if 'A' ≤ c ∧ c ≤ 'F' then c.toNat - 'A'.toNat + 10
    else base
  if v < base then some v else none

/-- The digits of a number, onto the value of those before them. -/
def digitsValue (base : Nat) : Nat → List Char → Option Nat
  | acc, [] => some acc
  | acc, c :: cs =>
    match digitValue base c with
    | some d => digitsValue base (acc * base + d) cs
    | none => none

/-- "Numbers are decimal or `0x` hex" (R82). -/
def readNumber : List Char → Option Nat
  | [] => none
  | '0' :: 'x' :: c :: cs => digitsValue 16 0 (c :: cs)
  | cs => digitsValue 10 0 cs

/-- One part of a dotted quad: a decimal number of at most 255 (log entry 11). -/
def readQuadPart (cs : List Char) : Option Nat :=
  match cs with
  | [] => none
  | _ =>
    match digitsValue 10 0 cs with
    | some n => if n ≤ 255 then some n else none
    | none => none

/-- "An address is a 32-bit number or a dotted quad" (R82). -/
def readAddress (cs : List Char) : Option Nat :=
  match splitAtChar '.' cs with
  | [a, b, c, d] =>
    match readQuadPart a, readQuadPart b, readQuadPart c, readQuadPart d with
    | some a, some b, some c, some d => some (dottedQuad a b c d)
    | _, _, _, _ => none
  | _ => readNumber cs

/-- The field names of R73, with their selectors. -/
def fieldNames : List (String × Nat) :=
  [("VER", 0), ("HLEN", 1), ("DSCP", 2), ("ECN", 3), ("TLEN", 4), ("ID", 5), ("FLAGS", 6), ("FRAG", 7), ("TTL", 8),
    ("PROTO", 9), ("CSUM", 10), ("SRC", 11), ("DST", 12), ("IDCTR", 13), ("STATUS", 14)]

/-- A field by its name, or by its selector number (as 95_test_vectors.md writes `RDF 15`; log entry 11). -/
def readFieldName (cs : List Char) : Option Nat :=
  match fieldNames.find? fun p => p.1.toList == cs with
  | some p => some p.2
  | none => readNumber cs

/-- A number given as `key=value` (STAMP's operands). -/
def readKeyed (key : String) (read : List Char → Option Nat) (cs : List Char) : Option Nat :=
  match splitAtChar '=' cs with
  | [k, v] => if trimBlanks k == key.toList then read (trimBlanks v) else none
  | _ => none

/-- The operands after a mnemonic: what stands between the commas. -/
def operandTexts (cs : List Char) : List (List Char) :=
  match trimBlanks cs with
  | [] => []
  | cs => (splitAtChar ',' cs).map trimBlanks

/-- Every text of a list read as a number, or none. -/
def readNumbers : List (List Char) → Option (List Nat)
  | [] => some []
  | t :: ts =>
    match readNumber t, readNumbers ts with
    | some n, some ns => some (n :: ns)
    | _, _ => none

/-- What a line means: a command of R82 or a pseudo-instruction of R83. -/
inductive SourceLine where
  | line (l : AsmLine)
  | pseudo (p : Pseudo)
deriving DecidableEq, Repr

/-- A line without operands. -/
def lineOf0 (l : AsmLine) : List (List Char) → Option SourceLine
  | [] => some (.line l)
  | _ => none

/-- A line with one operand. -/
def lineOf1 (read : List Char → Option Nat) (l : Nat → AsmLine) : List (List Char) → Option SourceLine
  | [t] => (read t).map fun n => .line (l n)
  | _ => none

/-- A line with two operands. -/
def lineOf2 (read₁ read₂ : List Char → Option Nat) (l : Nat → Nat → AsmLine) : List (List Char) → Option SourceLine
  | [t₁, t₂] =>
    match read₁ t₁, read₂ t₂ with
    | some n₁, some n₂ => some (.line (l n₁ n₂))
    | _, _ => none
  | _ => none

/-- STAMP's five operands, in R82's order. -/
def lineOfStamp : List (List Char) → Option SourceLine
  | [t, m, n, s, d] =>
    match readKeyed "ttl" readNumber t, readKeyed "mf" readNumber m, readKeyed "len" readNumber n,
      readKeyed "src" readAddress s, readKeyed "dst" readAddress d with
    | some t, some m, some n, some s, some d => some (.line (.stamp t m n s d))
    | _, _, _, _, _ => none
  | _ => none

/-- LDHDR with its ten words. -/
def lineOfLdhdr (ts : List (List Char)) : Option SourceLine :=
  match readNumbers ts with
  | some ns => if h : ns.toArray.size = 10 then some (.pseudo (.ldhdr ⟨ns.toArray, h⟩)) else none
  | none => none

/-- The mnemonics of R82 and R83, each with how its operands are read. -/
def lineReaders : List (String × (List (List Char) → Option SourceLine)) :=
  [("NOP", lineOf0 .nop), ("SUMCLR", lineOf0 .sumclr), ("SUMADD", lineOf1 readNumber .sumadd),
    ("SUMRD", lineOf0 .sumrd), ("HCSUM", lineOf0 .hcsum), ("ASSIGN", lineOf0 .assign), ("VALID", lineOf0 .valid),
    ("RDF", lineOf1 readFieldName .rdf), ("WRF", lineOf2 readFieldName readNumber .wrf),
    ("RDW", lineOf1 readNumber .rdw), ("WRW", lineOf2 readNumber readNumber .wrw), ("STAMP", lineOfStamp),
    ("DSTEQ", lineOf1 readAddress .dsteq), ("LDHDR", lineOfLdhdr),
    ("CLRHDR", fun ts => if ts.isEmpty then some (.pseudo .clrhdr) else none),
    ("CSUM", fun ts => (readNumbers ts).map fun ns => .pseudo (.csum ns))]

/-- Read one line of assembly: the mnemonic, a blank, and the operands between commas. -/
def readLine (text : List Char) : Option SourceLine :=
  let cs := trimBlanks text
  let name := cs.takeWhile (· != ' ')
  match lineReaders.find? fun p => p.1.toList == name with
  | some p => p.2 (operandTexts (cs.drop name.length))
  | none => none

/-- The commands of a source line: one for a line of R82, one for each line of a pseudo-instruction's expansion. None if
the assembler refuses one of them. -/
def assembleLines : List AsmLine → Option (List Command)
  | [] => some []
  | l :: ls =>
    match assemble l, assembleLines ls with
    | some c, some cs => some (c :: cs)
    | _, _ => none

/-- The commands a source line stands for. -/
def assembleSource : SourceLine → Option (List Command)
  | .line l => assembleLines [l]
  | .pseudo p => assembleLines (expand p)

/-- One line of text to commands. -/
def assembleText (text : String) : Option (List Command) :=
  match readLine text.toList with
  | some l => assembleSource l
  | none => none

end Sys2Proof.Machine
end

