-- ==== Sys2Proof/Machine/Clocked.lean ====
section
/-! DEFINITION. The block behind its ports, one rising clock edge at a time (20_memory.md R51 to R53,
70_reset_and_hazards.md R230, R238): the valid/ready handshake, the command in flight for CMD_LATENCY cycles, the response
and the reset pin. The commands' effects are those of the core machine; this layer says when they happen. -/

namespace Sys2Proof.Machine

/-- The input pins as they stand at one rising edge of `clk` (R51). -/
structure Pins where
  rst : Bool
  cmdValid : Bool
  cmd : Data
  opa : Data
  opb : Data
deriving DecidableEq, Repr

/-- `cmd`, `opa` and `opb`, as they are captured at acceptance (R52). -/
def Pins.command (p : Pins) : Command := ⟨p.cmd, p.opa, p.opb⟩

/-- The command in the block, and how many more edges pass before the one that completes it. -/
structure InFlight where
  command : Command
  wait : Nat
deriving DecidableEq, Repr

/-- The block between two edges: its registers and response port, and the command in progress (at most one, R52). The
list of host actions in `block` plays no part here: the pins are given edge by edge. -/
structure Clocked where
  block : State
  inFlight : Option InFlight
deriving DecidableEq, Repr

/-- After reset: `cmd_ready` is 1 and nothing is in progress (R230, R231). -/
def Clocked.reset : Clocked := ⟨State.reset, none⟩

/-- `cmd_ready`, given the reset pin: low from the acceptance edge until the edge that raises `rsp_valid` (R52), and low
while `rst` is high (70_reset_and_hazards.md R230; log entry 7). -/
def Clocked.cmdReady (rst : Bool) (b : Clocked) : Bool := !rst && b.inFlight.isNone

/-- "A command is accepted at a rising edge of `clk` where `cmd_valid` and `cmd_ready` are both high and `rst` is low"
(R52). -/
def Clocked.accepts (p : Pins) (b : Clocked) : Bool := !p.rst && p.cmdValid && b.cmdReady p.rst

/-- `rsp_valid`, given the reset pin: high for the one cycle from the edge that completes a command to the next edge (R51),
and low at every edge where `rst` is high (70_reset_and_hazards.md R230), which R52 excepts from "exactly one response":
"unless reset intervenes". -/
def Clocked.rspValid (rst : Bool) (b : Clocked) : Bool := !rst && b.block.rsp.isSome

/-- What one edge does to the registers, in the core machine's terms, given the pins and what is in progress: reset, the
completion of the command in progress, or nothing. -/
def edgeEvent (p : Pins) (f : Option InFlight) : HostEvent :=
  if p.rst then .reset
  else
    match f with
    | some f => if f.wait = 0 then .command f.command else .idle
    | none => .idle

/-- What is in progress after one edge: nothing after a reset edge ("A command in progress when `rst` rises is
abandoned", 70 R230) or after the edge that completes; a command just captured completes `CMD_LATENCY` edges later. -/
def inFlightAfter (latency : Latency) (p : Pins) (f : Option InFlight) : Option InFlight :=
  if p.rst then none
  else
    match f with
    | some f => if f.wait = 0 then none else some ⟨f.command, f.wait - 1⟩
    | none => if p.cmdValid then some ⟨p.command, latency.cycles - 1⟩ else none

/-- One rising edge of `clk`. -/
def Clocked.edge (latency : Latency) (p : Pins) (b : Clocked) : Host.Outcome Clocked Fault Refusal :=
  match runEvent (edgeEvent p b.inFlight) b.block with
  | .next s => .next ⟨s, inFlightAfter latency p b.inFlight⟩
  | .fault r => .fault r
  | .refused r => .refused r

/-- The edges of a list of pin values, one after another. -/
def Clocked.edges (latency : Latency) : List Pins → Clocked → Host.Outcome Clocked Fault Refusal
  | [], b => .next b
  | p :: ps, b =>
    match b.edge latency p with
    | .next b' => b'.edges latency ps
    | .fault r => .fault r
    | .refused r => .refused r

/-- The core machine's view of a list of pin values: the event of each edge in turn. -/
def edgeEvents (latency : Latency) : List Pins → Option InFlight → List HostEvent
  | [], _ => []
  | p :: ps, f => edgeEvent p f :: edgeEvents latency ps (inFlightAfter latency p f)

end Sys2Proof.Machine
end

