-- ==== Sys2Proof/Safety.lean ====
section
/-! DEFINITION. What a state of the block looks like after an error, and what counts as a clean run, in the terms the
statements use. -/

namespace Sys2Proof.Machine

/-- The error a response code reports. -/
def RspCode.error : RspCode → Option ErrorCode
  | .ok => none
  | .illegal => some .illegal
  | .range => some .range
  | .capacity => some .capacity

/-- The invariant of the response port: a response that reports an error has data 0, and its sticky bit is set
(60_exceptions.md R200, R201). -/
def ErrorRecorded (s : State) : Prop :=
  ∀ r e, s.rsp = some r → r.code.error = some e → r.data = 0 ∧ s.status.sticky e = true

/-- No command since reset has ended with an error: "A model that wants the source's 'fatal, not silently recoverable'
reading can treat any response other than OK as a fault of the run; STATUS's sticky bits support that reading" (R209). -/
def State.clean (s : State) : Prop := s.status.ill = false ∧ s.status.rng = false ∧ s.status.cap = false

end Sys2Proof.Machine
end

