-- ==== Sys2Proof/Certificates/Slice0/Obligations.lean ====
section
/-! DEFINITION. The statements about the block, with the spec-side terms they are written in. The terms of `Claims` are
written from the spec's rules, and not with the model's own operations, wherever the rule gives a formula. -/

namespace Sys2Proof.Claims

open Sys2Proof.Machine

/-! ## Terms -/

/-- `op = cmd[3:0]` (30_encoding.md R71). -/
def op (cmd : Data) : Nat := (cmd.extractLsb' 0 4).toNat

/-- `sel = cmd[7:4]` (R71). -/
def sel (cmd : Data) : Nat := (cmd.extractLsb' 4 4).toNat

/-- A 1 in a bit the opcode does not use (30_encoding.md R76). -/
abbrev UnusedBitSet (cmd : Data) : Prop :=
  (op cmd ∈ [0x0, 0x1, 0x2, 0x3, 0x4, 0x5, 0x6, 0xC] ∧ cmd.extractLsb' 4 28 ≠ 0) ∨
  (op cmd ∈ [0x7, 0x8, 0x9, 0xA] ∧ cmd.extractLsb' 8 24 ≠ 0) ∨
  (op cmd = 0xB ∧ cmd.extractLsb' 5 3 ≠ 0)

/-- "The complete list of ILLEGAL command words" (30_encoding.md R77). -/
abbrev Listed (cmd : Data) : Prop :=
  op cmd ∈ [0xD, 0xE, 0xF] ∨ UnusedBitSet cmd ∨ (op cmd = 0x7 ∧ sel cmd = 15) ∨
  (op cmd = 0x8 ∧ sel cmd ∈ [14, 15]) ∨ (op cmd ∈ [0x9, 0xA] ∧ 10 ≤ sel cmd)

/-- The width column of 30_encoding.md R73, selectors 0 to 14. -/
def widths : List Nat := [4, 4, 6, 2, 16, 16, 3, 13, 8, 8, 16, 32, 32, 16, 4]

/-- The rows of R73, selectors 0 to 14. -/
def selectors : List Selector :=
  [.field .ver, .field .hlen, .field .dscp, .field .ecn, .field .tlen, .field .id, .field .flags, .field .frag,
    .field .ttl, .field .proto, .field .csum, .field .src, .field .dst, .idctr, .status]

/-- "A legal command word whose operand does not fit" (30_encoding.md R78), its word being legal. -/
abbrev OperandTooWide (c : Command) : Prop :=
  (op c.cmd ∈ [0x2, 0xA] ∧ c.opa.extractLsb' 16 16 ≠ 0) ∨
  (op c.cmd = 0x8 ∧ 2 ^ widths.getD (sel c.cmd) 0 ≤ c.opa.toNat)

/-- "a STAMP whose `dsz` exceeds P" (30_encoding.md R79, 42_container.md R170), S the packet size. -/
abbrev OverCapacity (c : Command) (s : State) : Prop :=
  op c.cmd = 0xB ∧ (s.packetSize.bytes - 20) / 8 * 8 < (c.cmd.extractLsb' 16 16).toNat

/-- The state after a command that ended with ILLEGAL (60_exceptions.md R201). -/
def afterIllegal (s : State) : State :=
  { s with status := { s.status with ill := true }, rsp := some ⟨0, .illegal⟩ }

/-- The state after a command that ended with RANGE (R201). -/
def afterRange (s : State) : State :=
  { s with status := { s.status with rng := true }, rsp := some ⟨0, .range⟩ }

/-- The state after a command that ended with CAPACITY (R201). -/
def afterCapacity (s : State) : State :=
  { s with status := { s.status with cap := true }, rsp := some ⟨0, .capacity⟩ }

/-- Every word of opcode `code` with a 1 above bit 3 is ILLEGAL (R76, first line). -/
def PlainOpcode (code : Nat) : Prop :=
  ∀ cmd opa opb s, op cmd = code → cmd.extractLsb' 4 28 ≠ 0 →
    runCommand ⟨cmd, opa, opb⟩ s = .next (afterIllegal s)

/-- The one's-complement sum of 40_checksum.md R101, on exact integers. -/
def onesAdd (a w : Nat) : Nat := if a + w < 0x10000 then a + w else a + w - 0xFFFF

/-- The closed form of 40_checksum.md R103, from the exact integer sum. -/
def onesSum (total : Nat) : Nat := if total = 0 then 0 else (total - 1) % 0xFFFF + 1

/-- The exact integer sum of a sequence of words. -/
def exactSum (ws : List Word) : Nat := (ws.map BitVec.toNat).sum

/-- The exact integer sum of the ten header words. -/
def wordSum (h : Header) : Nat := exactSum h.toList

/-- The column "word and bits" of 10_state.md R21, zero-extended. -/
def fieldValue (h : Header) : Field → Data
  | .ver => (h[0].extractLsb' 12 4).setWidth 32
  | .hlen => (h[0].extractLsb' 8 4).setWidth 32
  | .dscp => (h[0].extractLsb' 2 6).setWidth 32
  | .ecn => (h[0].extractLsb' 0 2).setWidth 32
  | .tlen => h[1].setWidth 32
  | .id => h[2].setWidth 32
  | .flags => (h[3].extractLsb' 13 3).setWidth 32
  | .frag => (h[3].extractLsb' 0 13).setWidth 32
  | .ttl => (h[4].extractLsb' 8 8).setWidth 32
  | .proto => (h[4].extractLsb' 0 8).setWidth 32
  | .csum => h[5].setWidth 32
  | .src => h[6] ++ h[7]
  | .dst => h[8] ++ h[9]

/-- The header after the value `v` is written to a field: the field's bits replaced, the word's others kept (R21,
41_header_access.md R141), each word written as its slices from high to low. -/
def fieldWritten (h : Header) (v : Data) : Field → Header
  | .ver => h.set 0 (v.extractLsb' 0 4 ++ h[0].extractLsb' 0 12)
  | .hlen => h.set 0 (h[0].extractLsb' 12 4 ++ v.extractLsb' 0 4 ++ h[0].extractLsb' 0 8)
  | .dscp => h.set 0 (h[0].extractLsb' 8 8 ++ v.extractLsb' 0 6 ++ h[0].extractLsb' 0 2)
  | .ecn => h.set 0 (h[0].extractLsb' 2 14 ++ v.extractLsb' 0 2)
  | .tlen => h.set 1 (v.extractLsb' 0 16)
  | .id => h.set 2 (v.extractLsb' 0 16)
  | .flags => h.set 3 (v.extractLsb' 0 3 ++ h[3].extractLsb' 0 13)
  | .frag => h.set 3 (h[3].extractLsb' 13 3 ++ v.extractLsb' 0 13)
  | .ttl => h.set 4 (v.extractLsb' 0 8 ++ h[4].extractLsb' 0 8)
  | .proto => h.set 4 (h[4].extractLsb' 8 8 ++ v.extractLsb' 0 8)
  | .csum => h.set 5 (v.extractLsb' 0 16)
  | .src => (h.set 6 (v.extractLsb' 16 16)).set 7 (v.extractLsb' 0 16)
  | .dst => (h.set 8 (v.extractLsb' 16 16)).set 9 (v.extractLsb' 0 16)

/-- What RDF of a selector reads (41_header_access.md R140); STATUS with V in bit 0 up to CAP in bit 3 (10_state.md
R28). -/
def selectorValue (s : State) : Selector → Data
  | .field f => fieldValue s.hdr f
  | .idctr => s.idctr.setWidth 32
  | .status =>
    BitVec.ofNat 32 (s.status.v.toNat + 2 * s.status.ill.toNat + 4 * s.status.rng.toNat + 8 * s.status.cap.toNat)

/-- VALID, executed in `s`, answers `d` with code OK. -/
def ValidAnswers (s : State) (d : Data) : Prop :=
  ∃ t, exec .valid s = .next t ∧ t.rsp = some ⟨d, .ok⟩

/-- HCSUM, executed in `s`, answers `d` with code OK. -/
def HcsumAnswers (s : State) (d : Data) : Prop :=
  ∃ t, exec .hcsum s = .next t ∧ t.rsp = some ⟨d, .ok⟩

/-- The instruction writes the header by its rule: "written only by WRW, WRF (selectors 0 to 12), ASSIGN (CSUM only) and
STAMP" (10_state.md R25). -/
def writesHeader : Instr → Bool
  | .assign | .wrw _ _ | .stamp _ _ _ _ _ | .wrf (.field _) _ => true
  | .nop | .sumclr | .sumadd _ | .sumrd | .hcsum | .valid | .rdf _ | .rdw _ | .dsteq _
  | .wrf .idctr _ | .wrf .status _ => false

/-- The instruction writes ACC by its rule (10_state.md R26). -/
def writesAcc : Instr → Bool
  | .sumclr | .sumadd _ | .hcsum | .assign | .valid | .stamp _ _ _ _ _ => true
  | .nop | .sumrd | .rdf _ | .wrf _ _ | .rdw _ | .wrw _ _ | .dsteq _ => false

/-- The instruction writes IDCTR by its rule (10_state.md R27). -/
def writesIdctr : Instr → Bool
  | .stamp _ _ _ _ _ | .wrf .idctr _ => true
  | .nop | .sumclr | .sumadd _ | .sumrd | .hcsum | .assign | .valid | .rdf _ | .rdw _ | .wrw _ _ | .dsteq _
  | .wrf (.field _) _ | .wrf .status _ => false

/-- The instruction is a STAMP. -/
def isStamp : Instr → Bool
  | .stamp _ _ _ _ _ => true
  | .nop | .sumclr | .sumadd _ | .sumrd | .hcsum | .assign | .valid | .rdf _ | .wrf _ _ | .rdw _ | .wrw _ _ | .dsteq _ => false

/-- The instructions that only read (20_memory.md R58). -/
def onlyReads : Instr → Bool
  | .sumrd | .rdf _ | .rdw _ | .dsteq _ => true
  | .nop | .sumclr | .sumadd _ | .hcsum | .assign | .valid | .wrf _ _ | .wrw _ _ | .stamp _ _ _ _ _ => false

/-- Instructions executed one after another; none where one does not answer a next state. -/
def execAll : List Instr → State → Option State
  | [], s => some s
  | i :: is, s =>
    match exec i s with
    | .next t => execAll is t
    | _ => none

/-- The ID fields that the successful STAMPs of a list of instructions write, in order. -/
def stampIds : List Instr → State → List Word
  | [], _ => []
  | i :: is, s =>
    match exec i s with
    | .next t => if isStamp i ∧ t.rsp.map Response.code = some .ok then t.hdr[2] :: stampIds is t else stampIds is t
    | _ => []

/-- Commands run one after another; none where one does not answer a next state. -/
def runAll : List Command → State → Option State
  | [], s => some s
  | c :: cs, s =>
    match runCommand c s with
    | .next t => runAll cs t
    | _ => none

/-- The responses that `n` steps give, in order. -/
def runResponses : Nat → State → List Response
  | 0, _ => []
  | n + 1, s =>
    match step s with
    | .next t => t.rsp.toList ++ runResponses n t
    | _ => []

/-- The two bytes of a word exchanged. -/
def swapBytes (w : Word) : Word := w.extractLsb' 0 8 ++ w.extractLsb' 8 8

end Sys2Proof.Claims

open Sys2Proof Sys2Proof.Machine Sys2Proof.Claims

/-! ## Encoding -/

/-- Command words of 95_test_vectors.md and 30_encoding.md R82, written out, decode to the commands they stand for. -/
def Obligations.SampleCommandWordsDecode : Prop :=
  decode ⟨0b00000000000000000000000000000000, 0, 0⟩ = .ok .nop ∧
  decode ⟨0b00000000000000000000000000000010, 0x0000F203, 0⟩ = .ok (.sumadd 0xF203) ∧
  decode ⟨0b00000000000000000000000001100111, 0, 0⟩ = .ok (.rdf (.field .flags)) ∧
  decode ⟨0b00000000000000000000000000101000, 0x2E, 0⟩ = .ok (.wrf (.field .dscp) 0x2E) ∧
  decode ⟨0b00000000000000000000000001011001, 0, 0⟩ = .ok (.rdw 5) ∧
  decode ⟨0b00000000000000000000000000111010, 0x4000, 0⟩ = .ok (.wrw 3 0x4000) ∧
  decode ⟨0b00000000000100000100000000011011, 0xC0A80001, 0xFFFFFFFF⟩ =
    .ok (.stamp true 64 16 0xC0A80001 0xFFFFFFFF) ∧
  decode ⟨0b00000000000000000000000000001100, 0xC0A800C7, 0⟩ = .ok (.dsteq 0xC0A800C7)

/-- Decode and encode agree: no bit of an encoding is dropped, for every well-formed instruction with every operand. -/
def Obligations.DecodeOfEncodeIsTheInstruction : Prop :=
  ∀ i : Instr, i.wellFormed = true → decode (encode i) = .ok i

/-- Each legal word has one meaning: what the decoder accepts is a well-formed instruction, and the encoder gives back the
command word it was decoded from and the operands its opcode reads (30_encoding.md R75). -/
def Obligations.EncodeOfDecodeGivesTheCommandBack : Prop :=
  ∀ (c : Command) (i : Instr), decode c = .ok i →
    i.wellFormed = true ∧
    (encode i).cmd = c.cmd ∧
    (op c.cmd ∈ [0x2, 0x8, 0xA, 0xB, 0xC] → (encode i).opa = c.opa) ∧
    (op c.cmd = 0xB → (encode i).opb = c.opb)

/-- R77, R202: a command ends with ILLEGAL exactly if its word is in the list. -/
def Obligations.IllegalExactlyOnTheListedWords : Prop :=
  ∀ (c : Command) (s : State), ∃ t, runCommand c s = .next t ∧
    ((∃ d, t.rsp = some ⟨d, .illegal⟩) ↔ Listed c.cmd)

/-- R75: `opb` is read only by STAMP, `opa` only by SUMADD, WRW, WRF, STAMP and DSTEQ; other values have no effect. -/
def Obligations.IgnoredOperandsHaveNoEffect : Prop :=
  ∀ (cmd opa opa' opb opb' : Data) (s : State),
    (op cmd ∉ [0x2, 0x8, 0xA, 0xB, 0xC] → runCommand ⟨cmd, opa, opb⟩ s = runCommand ⟨cmd, opa', opb'⟩ s) ∧
    (op cmd ≠ 0xB → runCommand ⟨cmd, opa, opb⟩ s = runCommand ⟨cmd, opa, opb'⟩ s)

/-- R79, R203, R204, R205: every command has exactly one fate, and the first check that fails gives the one code. -/
def Obligations.EveryCommandHasExactlyOneFate : Prop :=
  ∀ (c : Command) (s : State),
    (Listed c.cmd → runCommand c s = .next (afterIllegal s)) ∧
    (¬ Listed c.cmd → OperandTooWide c → runCommand c s = .next (afterRange s)) ∧
    (¬ Listed c.cmd → OverCapacity c s → runCommand c s = .next (afterCapacity s)) ∧
    ¬ (OperandTooWide c ∧ OverCapacity c s) ∧
    (¬ Listed c.cmd → ¬ OperandTooWide c → ¬ OverCapacity c s →
      ∃ i t d, decode c = .ok i ∧ runCommand c s = exec i s ∧ exec i s = .next t ∧ t.rsp = some ⟨d, .ok⟩ ∧
        t.status.ill = s.status.ill ∧ t.status.rng = s.status.rng ∧ t.status.cap = s.status.cap)

/-! ## Errors -/

/-- R201: a command that ends with an error changes nothing but its sticky bit, answers 0 with its code, and the block
accepts the next command. -/
def Obligations.ErrorsChangeOnlyTheirStickyBit : Prop :=
  ∀ (c : Command) (s t : State) (r : Response), runCommand c s = .next t → t.rsp = some r → r.code ≠ .ok →
    (r.code = .illegal → t = afterIllegal s) ∧ (r.code = .range → t = afterRange s) ∧
    (r.code = .capacity → t = afterCapacity s) ∧ r.data = 0 ∧
    ∀ c', ∃ u, runCommand c' t = .next u ∧ u.rsp.isSome = true

/-- No error, no command and no host action stops the block (60_exceptions.md R208, R209). -/
def Obligations.TheBlockNeverHalts : Prop :=
  ∀ s : State, ∃ t, step s = .next t

/-- "cleared by: reset only" (10_state.md R28; 60_exceptions.md R208): a step that is not a reset clears no sticky bit. -/
def Obligations.OnlyResetClearsStickyBits : Prop :=
  ∀ (s t : State) (e : ErrorCode), s.port.head? ≠ some .reset → step s = .next t →
    s.status.sticky e = true → t.status.sticky e = true

/-- Every step keeps the invariant of the response port: a response that reports an error has data 0 and its sticky bit
set (60_exceptions.md R200, R201). -/
def Obligations.StepKeepsErrorsRecorded : Prop :=
  ∀ s t : State, ErrorRecorded s → step s = .next t → ErrorRecorded t

/-- The invariant holds after reset, whatever the reset draws. -/
def Obligations.ErrorsRecordedAtReset : Prop :=
  ErrorRecorded State.reset ∧ ∀ s : State, ErrorRecorded (applyReset s)

/-- R209: "any response other than OK" can be treated "as a fault of the run; STATUS's sticky bits support that reading".
From a clean state, a step leaves a clean state exactly if it gives no response other than OK; and a run of any number of
steps does so exactly if all its responses are OK, when the list of the host's actions holds no reset (reset clears the
sticky bits, R28). That the host's actions are a list is the model's choice (log entry 2). -/
def Obligations.CleanRunsAreThoseWithoutErrors : Prop :=
  (∀ s t : State, s.clean → step s = .next t → (t.clean ↔ ∀ r, t.rsp = some r → r.code = .ok)) ∧
  (∀ (n : Nat) (s t : State), s.clean → HostEvent.reset ∉ s.port → core.run n s = .next t →
    (t.clean ↔ ∀ r ∈ runResponses n s, r.code = .ok))

/-! ## Steps of the machine -/

/-- A step whose next host action presents a legal command is `exec` of that command, in the state with the action taken
off the host's list (the list is the model's choice, log entry 2). A word that does not decode ends the step with ILLEGAL:
R201 and R202 give the response and the sticky bit, and that `step` gives them for every word the decoder rejects is the
model's inference from them (log entry 10). -/
def Obligations.StepRunsTheDecodedCommand : Prop :=
  ∀ (s : State) (c : Command) (rest : List HostEvent), s.port = .command c :: rest →
    (∀ i, decode c = .ok i → step s = exec i { s with port := rest }) ∧
    ((∀ i, decode c ≠ .ok i) → step s = .next (afterIllegal { s with port := rest }))

/-- "While `cmd_valid` is low the block does nothing and its state does not change" (20_memory.md R52); `rsp_valid` is low
again. An empty list of host actions is the model's way to say that nothing is presented (log entry 2). -/
def Obligations.IdleStepChangesNoRegister : Prop :=
  ∀ s : State,
    (s.port = [] → step s = .next { s with rsp := none }) ∧
    (∀ rest, s.port = .idle :: rest → step s = .next { s with rsp := none, port := rest })

/-- A step takes one host action off the list and never changes PACKET_SIZE (the model's own fields, log entries 2, 4). -/
def Obligations.StepTakesOneActionAndKeepsThePacketSize : Prop :=
  ∀ s t : State, step s = .next t → t.port = s.port.tail ∧ t.packetSize = s.packetSize

/-- R231: the reset values, for State.reset and for any draws of HDR_INIT and ID_INIT. -/
def Obligations.ResetValues : Prop :=
  (∀ (hdrInit : BitVec 160) (idInit : Word) (size : PacketSize) (port : List HostEvent) (n : Nat),
    let r := State.resetWith hdrInit idInit size port n
    r.hdrOut = hdrInit ∧ r.acc = 0 ∧ r.idctr = idInit ∧ r.status = ⟨false, false, false, false⟩ ∧ r.rsp = none) ∧
  State.reset.hdrOut = Config.hdrInit 0 ∧ State.reset.idctr = Config.idInit 0 ∧ State.reset.acc = 0 ∧
  State.reset.status = ⟨false, false, false, false⟩ ∧ State.reset.rsp = none ∧
  Clocked.reset.block = State.reset ∧ Clocked.reset.cmdReady false = true

/-- A reset in the course of a run gives every register its reset value (R230, R231). The model's own choices: the header
and IDCTR take the next draw of HDR_INIT and ID_INIT, numbered by a counter of resets (log entry 5); the reset is taken off
the host's list (log entry 2); PACKET_SIZE, held in State, stays (log entry 4). -/
def Obligations.ResetStepGivesResetValues : Prop :=
  ∀ (s : State) (rest : List HostEvent), s.port = .reset :: rest →
    ∃ t, step s = .next t ∧ t.acc = 0 ∧ t.status = ⟨false, false, false, false⟩ ∧ t.rsp = none ∧
      t.hdrOut = Config.hdrInit (s.resetCount + 1) ∧ t.idctr = Config.idInit (s.resetCount + 1) ∧
      t.resetCount = s.resetCount + 1 ∧ t.port = rest ∧ t.packetSize = s.packetSize

/-! ## The commands -/

/-- R175. -/
def Obligations.NopChangesNothing : Prop :=
  (∀ s, exec .nop s = .next { s with rsp := some ⟨0, .ok⟩ }) ∧
  (∀ opa opb s, runCommand ⟨0x00000000, opa, opb⟩ s = exec .nop s) ∧ PlainOpcode 0x0

/-- R110. -/
def Obligations.SumclrClearsAcc : Prop :=
  (∀ s, exec .sumclr s = .next { s with acc := 0, rsp := some ⟨0, .ok⟩ }) ∧
  (∀ opa opb s, runCommand ⟨0x00000001, opa, opb⟩ s = exec .sumclr s) ∧ PlainOpcode 0x1

/-- R111: the new ACC is the one's-complement sum of R101, on exact integers. -/
def Obligations.SumaddAddsOneWord : Prop :=
  (∀ (opa : Data) (s : State),
    (opa.extractLsb' 16 16 ≠ 0 → exec (.sumadd opa) s = .next (afterRange s)) ∧
    (opa.extractLsb' 16 16 = 0 → ∃ sum : Word,
      sum.toNat = onesAdd s.acc.toNat (opa.extractLsb' 0 16).toNat ∧
      exec (.sumadd opa) s = .next { s with acc := sum, rsp := some ⟨sum.setWidth 32, .ok⟩ })) ∧
  (∀ opa opb s, runCommand ⟨0x00000002, opa, opb⟩ s = exec (.sumadd opa) s) ∧ PlainOpcode 0x2

/-- R112. -/
def Obligations.SumrdAnswersAccAndComplement : Prop :=
  (∀ s, exec .sumrd s = .next { s with rsp := some ⟨s.acc ++ ~~~s.acc, .ok⟩ }) ∧
  (∀ opa opb s, runCommand ⟨0x00000003, opa, opb⟩ s = exec .sumrd s) ∧ PlainOpcode 0x3

/-- R113: the raw sum by R103's closed form; the answer is 0 exactly when VALID would answer 1. -/
def Obligations.HcsumSumsTheHeader : Prop :=
  (∀ s, ∃ sum : Word, sum.toNat = onesSum (wordSum s.hdr) ∧
    exec .hcsum s = .next { s with acc := sum, rsp := some ⟨(~~~sum).setWidth 32, .ok⟩ }) ∧
  (∀ s, HcsumAnswers s 0 ↔ ValidAnswers s 1) ∧
  (∀ opa opb s, runCommand ⟨0x00000004, opa, opb⟩ s = exec .hcsum s) ∧ PlainOpcode 0x4

/-- R114: only the checksum word changes, to the complement of the sum with that word 0. -/
def Obligations.AssignStoresTheChecksum : Prop :=
  (∀ s, ∃ sum : Word, sum.toNat = onesSum (wordSum (s.hdr.set 5 0)) ∧
    exec .assign s =
      .next { s with hdr := s.hdr.set 5 (~~~sum), acc := sum, rsp := some ⟨(~~~sum).setWidth 32, .ok⟩ }) ∧
  (∀ opa opb s, runCommand ⟨0x00000005, opa, opb⟩ s = exec .assign s) ∧ PlainOpcode 0x5

/-- R115: a failing check is no error. -/
def Obligations.ValidChecksTheHeader : Prop :=
  (∀ s, ∃ sum : Word, sum.toNat = onesSum (wordSum s.hdr) ∧
    (sum = 0xFFFF → exec .valid s =
      .next { s with acc := sum, status := { s.status with v := true }, rsp := some ⟨1, .ok⟩ }) ∧
    (sum ≠ 0xFFFF → exec .valid s =
      .next { s with acc := sum, status := { s.status with v := false }, rsp := some ⟨0, .ok⟩ })) ∧
  (∀ opa opb s, runCommand ⟨0x00000006, opa, opb⟩ s = exec .valid s) ∧ PlainOpcode 0x6

/-- R140, with the selectors' numbers (R73) and the fields' bits (R21). -/
def Obligations.RdfReadsWhatTheSelectorNames : Prop :=
  (∀ sl s, exec (.rdf sl) s = .next { s with rsp := some ⟨selectorValue s sl, .ok⟩ }) ∧
  (∀ n sl, selectors[n]? = some sl → ∀ opa opb s,
    runCommand ⟨BitVec.ofNat 32 (n * 16 + 0x7), opa, opb⟩ s = exec (.rdf sl) s) ∧
  (∀ cmd opa opb s, op cmd = 0x7 → (cmd.extractLsb' 8 24 ≠ 0 ∨ sel cmd = 15) →
    runCommand ⟨cmd, opa, opb⟩ s = .next (afterIllegal s))

/-- R141, with the selectors' numbers and widths (R73) and the fields' bits (R21). -/
def Obligations.WrfWritesExactlyTheField : Prop :=
  (∀ (n : Nat) (f : Field) (v : Data) (s : State), selectors[n]? = some (.field f) →
    (2 ^ widths.getD n 0 ≤ v.toNat → exec (.wrf (.field f) v) s = .next (afterRange s)) ∧
    (v.toNat < 2 ^ widths.getD n 0 →
      exec (.wrf (.field f) v) s = .next { s with hdr := fieldWritten s.hdr v f, rsp := some ⟨0, .ok⟩ })) ∧
  (∀ (v : Data) (s : State),
    (2 ^ 16 ≤ v.toNat → exec (.wrf .idctr v) s = .next (afterRange s)) ∧
    (v.toNat < 2 ^ 16 →
      exec (.wrf .idctr v) s = .next { s with idctr := v.extractLsb' 0 16, rsp := some ⟨0, .ok⟩ }) ∧
    exec (.wrf .status v) s = .next (afterIllegal s)) ∧
  (∀ n sl, n < 14 → selectors[n]? = some sl → ∀ opa opb s,
    runCommand ⟨BitVec.ofNat 32 (n * 16 + 0x8), opa, opb⟩ s = exec (.wrf sl opa) s) ∧
  (∀ cmd opa opb s, op cmd = 0x8 → (cmd.extractLsb' 8 24 ≠ 0 ∨ sel cmd = 14 ∨ sel cmd = 15) →
    runCommand ⟨cmd, opa, opb⟩ s = .next (afterIllegal s))

/-- R142. -/
def Obligations.RdwReadsOneWord : Prop :=
  (∀ (i : Fin 16) (s : State) (h : i.val < 10),
    exec (.rdw i) s = .next { s with rsp := some ⟨(s.hdr[i.val]).setWidth 32, .ok⟩ }) ∧
  (∀ (i : Fin 16) (s : State), 10 ≤ i.val → exec (.rdw i) s = .next (afterIllegal s)) ∧
  (∀ i : Fin 16, i.val < 10 → ∀ opa opb s,
    runCommand ⟨BitVec.ofNat 32 (i.val * 16 + 0x9), opa, opb⟩ s = exec (.rdw i) s) ∧
  (∀ cmd opa opb s, op cmd = 0x9 → (cmd.extractLsb' 8 24 ≠ 0 ∨ 10 ≤ sel cmd) →
    runCommand ⟨cmd, opa, opb⟩ s = .next (afterIllegal s))

/-- R143. -/
def Obligations.WrwWritesOneWord : Prop :=
  (∀ (i : Fin 16) (w : Data) (s : State) (h : i.val < 10),
    (w.extractLsb' 16 16 ≠ 0 → exec (.wrw i w) s = .next (afterRange s)) ∧
    (w.extractLsb' 16 16 = 0 →
      exec (.wrw i w) s = .next { s with hdr := s.hdr.set i.val (w.extractLsb' 0 16), rsp := some ⟨0, .ok⟩ })) ∧
  (∀ (i : Fin 16) (w : Data) (s : State), 10 ≤ i.val → exec (.wrw i w) s = .next (afterIllegal s)) ∧
  (∀ i : Fin 16, i.val < 10 → ∀ opa opb s,
    runCommand ⟨BitVec.ofNat 32 (i.val * 16 + 0xA), opa, opb⟩ s = exec (.wrw i opa) s) ∧
  (∀ cmd opa opb s, op cmd = 0xA → (cmd.extractLsb' 8 24 ≠ 0 ∨ 10 ≤ sel cmd) →
    runCommand ⟨cmd, opa, opb⟩ s = .next (afterIllegal s))

/-- R171: the header STAMP leaves, word by word, with its checksum by R103's closed form. -/
def Obligations.StampWritesThePerPacketFields : Prop :=
  (∀ (mf : Bool) (ttl : Byte) (dsz : Word) (src dst : Data) (s : State),
    ((s.packetSize.bytes - 20) / 8 * 8 < dsz.toNat →
      exec (.stamp mf ttl dsz src dst) s = .next (afterCapacity s)) ∧
    (dsz.toNat ≤ (s.packetSize.bytes - 20) / 8 * 8 → ∃ tlen sum : Word,
      tlen.toNat = 20 + dsz.toNat ∧
      (let stamped (csum : Word) : Header :=
        #v[s.hdr[0], tlen, s.idctr,
          s.hdr[3].extractLsb' 14 2 ++ BitVec.ofBool mf ++ s.hdr[3].extractLsb' 0 13,
          ttl ++ s.hdr[4].extractLsb' 0 8, csum,
          src.extractLsb' 16 16, src.extractLsb' 0 16, dst.extractLsb' 16 16, dst.extractLsb' 0 16]
      sum.toNat = onesSum (wordSum (stamped 0)) ∧
      exec (.stamp mf ttl dsz src dst) s =
        .next { s with
          hdr := stamped (~~~sum)
          acc := sum
          idctr := BitVec.ofNat 16 ((s.idctr.toNat + 1) % 2 ^ 16)
          rsp := some ⟨s.idctr ++ ~~~sum, .ok⟩ }))) ∧
  (∀ (mf : Bool) (ttl : Byte) (dsz : Word) (src dst : Data) (s : State),
    runCommand ⟨BitVec.ofNat 32 (dsz.toNat * 0x10000 + ttl.toNat * 0x100 + mf.toNat * 0x10 + 0xB), src, dst⟩ s =
      exec (.stamp mf ttl dsz src dst) s) ∧
  (∀ cmd opa opb s, op cmd = 0xB → cmd.extractLsb' 5 3 ≠ 0 → runCommand ⟨cmd, opa, opb⟩ s = .next (afterIllegal s))

/-- R174: a mismatch is no error. -/
def Obligations.DsteqComparesTheDestination : Prop :=
  (∀ (a : Data) (s : State),
    (s.hdr[8] ++ s.hdr[9] = a → exec (.dsteq a) s = .next { s with rsp := some ⟨1, .ok⟩ }) ∧
    (s.hdr[8] ++ s.hdr[9] ≠ a → exec (.dsteq a) s = .next { s with rsp := some ⟨0, .ok⟩ })) ∧
  (∀ opa opb s, runCommand ⟨0x0000000C, opa, opb⟩ s = exec (.dsteq opa) s) ∧ PlainOpcode 0xC

/-! ## One's-complement arithmetic -/

/-- R103: the closed form, and that the order of the words does not matter. -/
def Obligations.OcsumClosedForm : Prop :=
  (∀ ws : List Word, (ocsum ws).toNat = onesSum (exactSum ws)) ∧
  ∀ ws vs : List Word, ws.Perm vs → ocsum ws = ocsum vs

/-- R104. -/
def Obligations.OcsumExtremeValues : Prop :=
  ∀ ws : List Word,
    (ocsum ws = 0 ↔ ∀ w ∈ ws, w = 0) ∧
    (ocsum ws = 0xFFFF ↔ 0 < exactSum ws ∧ exactSum ws % 0xFFFF = 0)

/-- R120: after a successful ASSIGN or STAMP, VALID answers 1 and HCSUM answers 0, in every state whose header is still
the one they left. -/
def Obligations.AssignedHeaderStaysValid : Prop :=
  ∀ (i : Instr) (s t : State) (d : Data), (i = .assign ∨ isStamp i = true) → exec i s = .next t →
    t.rsp = some ⟨d, .ok⟩ → ∀ u : State, u.hdr = t.hdr → ValidAnswers u 1 ∧ HcsumAnswers u 0

/-- R121: every single-bit error is detected, in every word and the checksum field's own bits included. -/
def Obligations.SingleBitErrorsAreDetected : Prop :=
  ∀ (s : State) (i : Fin 10) (k : Nat), k < 16 → ValidAnswers s 1 →
    ValidAnswers { s with hdr := s.hdr.set i.val (s.hdr[i.val] ^^^ (1#16 <<< k)) } 0

/-- R122: the two zeros. -/
def Obligations.TheTwoZeros : Prop :=
  (∀ (s : State) (i : Fin 10) (a b : Word) (d : Data),
    ((a = 0 ∧ b = 0xFFFF) ∨ (a = 0xFFFF ∧ b = 0)) → s.hdr[i.val] = a →
    (∃ j : Fin 10, s.hdr[j.val] ≠ 0) → (∃ j : Fin 10, (s.hdr.set i.val b)[j.val] ≠ 0) →
      (ValidAnswers s d ↔ ValidAnswers { s with hdr := s.hdr.set i.val b } d)) ∧
  (∀ (h : Header) (i : Fin 10), h[i.val] = 0 → wordSum (h.set i.val 0xFFFF) = wordSum h + 0xFFFF) ∧
  (∀ s : State, ValidAnswers { s with hdr := s.hdr.set 5 0 } 1 → ValidAnswers { s with hdr := s.hdr.set 5 0xFFFF } 1) ∧
  (∀ s t : State, exec .assign s = .next t →
    (t.hdr[5] = 0xFFFF ↔ ∀ j : Fin 10, j.val ≠ 5 → s.hdr[j.val] = 0) ∧
    (t.hdr[5] = 0 ↔ ocsum [s.hdr[0], s.hdr[1], s.hdr[2], s.hdr[3], s.hdr[4], s.hdr[6], s.hdr[7], s.hdr[8], s.hdr[9]]
      = 0xFFFF))

/-- R123. -/
def Obligations.AllZeroHeaderNeverValidates : Prop :=
  ∀ s : State, (∀ j : Fin 10, s.hdr[j.val] = 0) →
    headerSum s.hdr = 0 ∧ ValidAnswers s 0 ∧
    ∃ t, exec .assign s = .next t ∧ t.hdr[5] = 0xFFFF ∧ ValidAnswers t 1

/-- R124, the fact it names as general knowledge: a one's-complement sum of byte-swapped words is the byte-swap of the
sum. -/
def Obligations.ByteSwappedSum : Prop :=
  ∀ ws : List Word, ocsum (ws.map swapBytes) = swapBytes (ocsum ws)

/-- R235: a stream sum restarted with SUMCLR and one SUMADD of the saved raw sum goes on exactly, whatever ran between. -/
def Obligations.StreamSumRestartsFromSavedRawSum : Prop :=
  ∀ (s u : State) (d : Data), exec .sumrd s = .next { s with rsp := some ⟨d, .ok⟩ } →
    ∃ t, execAll [.sumclr, .sumadd ((d.extractLsb' 16 16).setWidth 32)] u = some t ∧ t.acc = s.acc ∧
      t.hdr = u.hdr ∧ t.idctr = u.idctr ∧ t.status = u.status

/-! ## Views of the header register -/

/-- R21: both columns of positions, bits of words and bits of bytes. -/
def Obligations.FieldPositions : Prop :=
  ∀ h : Header,
    (∀ f, getField h f = fieldValue h f) ∧
    fieldValue h .ver = ((headerByte h 0).extractLsb' 4 4).setWidth 32 ∧
    fieldValue h .hlen = ((headerByte h 0).extractLsb' 0 4).setWidth 32 ∧
    fieldValue h .dscp = ((headerByte h 1).extractLsb' 2 6).setWidth 32 ∧
    fieldValue h .ecn = ((headerByte h 1).extractLsb' 0 2).setWidth 32 ∧
    fieldValue h .tlen = (headerByte h 2 ++ headerByte h 3).setWidth 32 ∧
    fieldValue h .id = (headerByte h 4 ++ headerByte h 5).setWidth 32 ∧
    fieldValue h .flags = ((headerByte h 6).extractLsb' 5 3).setWidth 32 ∧
    fieldValue h .frag = ((headerByte h 6).extractLsb' 0 5 ++ headerByte h 7).setWidth 32 ∧
    fieldValue h .ttl = (headerByte h 8).setWidth 32 ∧
    fieldValue h .proto = (headerByte h 9).setWidth 32 ∧
    fieldValue h .csum = (headerByte h 10 ++ headerByte h 11).setWidth 32 ∧
    fieldValue h .src = headerByte h 12 ++ headerByte h 13 ++ headerByte h 14 ++ headerByte h 15 ∧
    fieldValue h .dst = headerByte h 16 ++ headerByte h 17 ++ headerByte h 18 ++ headerByte h 19

/-- R20, R51: the word, byte and 160-bit views are one set of bits; `hdr_out` has `B[0]` in bits 159:152. -/
def Obligations.WordsBytesAndHdrOutAgree : Prop :=
  ∀ s : State,
    (∀ (i : Nat) (h : i < 10),
      s.hdr[i] = headerByte s.hdr ⟨2 * i, by omega⟩ ++ headerByte s.hdr ⟨2 * i + 1, by omega⟩) ∧
    (∀ j : Fin 20, s.hdrOut.extractLsb' (152 - 8 * j.val) 8 = headerByte s.hdr j)

/-- "A write of one field changes only that field's bits" (10_state.md R25): every field reads back as written and every
other field as before. -/
def Obligations.FieldWriteKeepsOtherFields : Prop :=
  ∀ (s t : State) (f : Field) (v d : Data), exec (.wrf (.field f) v) s = .next t → t.rsp = some ⟨d, .ok⟩ →
    getField t.hdr f = v ∧ ∀ g, g ≠ f → getField t.hdr g = getField s.hdr g

/-- R55, R146: the mixed-width views agree, RDF after WRW reads the bits of the word written, and RDW after WRF reads the
word with the field's bits replaced and its others unchanged. -/
def Obligations.FieldAndWordViewsAgree : Prop :=
  (∀ s : State,
    exec (.rdf (.field .src)) s = .next { s with rsp := some ⟨s.hdr[6] ++ s.hdr[7], .ok⟩ } ∧
    exec (.rdw 0) s = .next { s with rsp := some ⟨((getField s.hdr .ver).extractLsb' 0 4 ++
      (getField s.hdr .hlen).extractLsb' 0 4 ++ (getField s.hdr .dscp).extractLsb' 0 6 ++
      (getField s.hdr .ecn).extractLsb' 0 2).setWidth 32, .ok⟩ } ∧
    exec (.rdw 3) s = .next { s with rsp := some ⟨((getField s.hdr .flags).extractLsb' 0 3 ++
      (getField s.hdr .frag).extractLsb' 0 13).setWidth 32, .ok⟩ } ∧
    exec (.rdw 4) s = .next { s with rsp := some ⟨((getField s.hdr .ttl).extractLsb' 0 8 ++
      (getField s.hdr .proto).extractLsb' 0 8).setWidth 32, .ok⟩ }) ∧
  (∀ (s t : State) (i : Fin 16) (w d : Data) (f : Field) (_ : i.val < 10),
    exec (.wrw i w) s = .next t → t.rsp = some ⟨d, .ok⟩ →
    exec (.rdf (.field f)) t =
      .next { t with rsp := some ⟨fieldValue (s.hdr.set i.val (w.extractLsb' 0 16)) f, .ok⟩ }) ∧
  (∀ (s t : State) (i : Fin 16) (v d : Data) (f : Field) (_ : i.val < 10),
    exec (.wrf (.field f) v) s = .next t → t.rsp = some ⟨d, .ok⟩ →
    exec (.rdw i) t = .next { t with rsp := some ⟨((fieldWritten s.hdr v f)[i.val]).setWidth 32, .ok⟩ })

/-! ## Frames over all instructions -/

/-- R25: the header register is written only by WRW, WRF (selectors 0 to 12), ASSIGN (its checksum word only) and
STAMP. -/
def Obligations.OnlyHeaderWritersChangeTheHeader : Prop :=
  ∀ (i : Instr) (s t : State), exec i s = .next t →
    (writesHeader i = false → t.hdr = s.hdr) ∧
    (i = .assign → ∀ j : Fin 10, j.val ≠ 5 → t.hdr[j.val] = s.hdr[j.val])

/-- R26: ACC is written only by SUMCLR, SUMADD, HCSUM, ASSIGN, VALID and a successful STAMP. -/
def Obligations.OnlyAccWritersChangeAcc : Prop :=
  ∀ (i : Instr) (s t : State), exec i s = .next t →
    (writesAcc i = false → t.acc = s.acc) ∧
    (isStamp i = true → (∀ d, t.rsp ≠ some ⟨d, .ok⟩) → t.acc = s.acc)

/-- R27: IDCTR is written only by WRF with selector 13 and a successful STAMP, which copies it into ID and adds 1. -/
def Obligations.OnlyIdctrWritersChangeIdctr : Prop :=
  ∀ (i : Instr) (s t : State), exec i s = .next t →
    (writesIdctr i = false → t.idctr = s.idctr) ∧
    (isStamp i = true → (∃ d, t.rsp = some ⟨d, .ok⟩) →
      t.hdr[2] = s.idctr ∧ t.idctr.toNat = (s.idctr.toNat + 1) % 2 ^ 16) ∧
    (isStamp i = true → (∀ d, t.rsp ≠ some ⟨d, .ok⟩) → t.idctr = s.idctr)

/-- "No command other than VALID and an erroring command changes STATUS" (10_state.md R28); V is VALID's alone. -/
def Obligations.OnlyValidAndErrorsChangeStatus : Prop :=
  ∀ (i : Instr) (s t : State), exec i s = .next t →
    (i ≠ .valid → t.status.v = s.status.v) ∧
    (i ≠ .valid → (∃ d, t.rsp = some ⟨d, .ok⟩) → t.status = s.status) ∧
    (i = .valid → t.status.ill = s.status.ill ∧ t.status.rng = s.status.rng ∧ t.status.cap = s.status.cap)

/-- R58: a read changes no register and gives the same answer again; HCSUM and VALID write only ACC (and STATUS.V) and
are idempotent. -/
def Obligations.ReadsHaveNoSideEffects : Prop :=
  (∀ (i : Instr) (s t : State), onlyReads i = true → i.wellFormed = true → exec i s = .next t →
    t = { s with rsp := t.rsp } ∧ exec i t = .next t) ∧
  (∀ s t : State, exec .hcsum s = .next t → t = { s with acc := t.acc, rsp := t.rsp } ∧ exec .hcsum t = .next t) ∧
  (∀ s t : State, exec .valid s = .next t →
    t = { s with acc := t.acc, status := { s.status with v := t.status.v }, rsp := t.rsp } ∧ exec .valid t = .next t)

/-- R145: no command but ASSIGN and STAMP writes the checksum field of its own accord; WRF and WRW change exactly the
bits they name. -/
def Obligations.NoImplicitChecksumUpdate : Prop :=
  (∀ (i : Instr) (s t : State), exec i s = .next t → i ≠ .assign → isStamp i = false →
    (∀ v, i ≠ .wrf (.field .csum) v) → (∀ w, i ≠ .wrw 5 w) → t.hdr[5] = s.hdr[5]) ∧
  (∀ (s t : State) (i : Fin 16) (w : Data), exec (.wrw i w) s = .next t →
    ∀ j : Fin 10, j.val ≠ i.val → t.hdr[j.val] = s.hdr[j.val]) ∧
  (∀ (s t : State) (f : Field) (v d : Data), exec (.wrf (.field f) v) s = .next t → t.rsp = some ⟨d, .ok⟩ →
    t.hdr = fieldWritten s.hdr v f)

/-! ## The packet container -/

/-- R170. -/
def Obligations.PayloadCapacityBounds : Prop :=
  ∀ size : PacketSize,
    payloadCap size = (size.bytes - 20) / 8 * 8 ∧ payloadCap size % 8 = 0 ∧ payloadCap size ≤ size.bytes - 20 ∧
    payloadCap size ≤ 65512 ∧ 20 + payloadCap size ≤ size.bytes ∧ size.bytes ≤ 65535

/-- R173: the fields STAMP leaves as they were. -/
def Obligations.StampKeepsTheOtherFields : Prop :=
  ∀ (mf : Bool) (ttl : Byte) (dsz : Word) (src dst : Data) (s t : State),
    exec (.stamp mf ttl dsz src dst) s = .next t →
    (∀ f ∈ [Field.ver, .hlen, .dscp, .ecn, .proto, .frag], getField t.hdr f = getField s.hdr f) ∧
    (getField t.hdr .flags).getLsbD 2 = (getField s.hdr .flags).getLsbD 2 ∧
    (getField t.hdr .flags).getLsbD 1 = (getField s.hdr .flags).getLsbD 1 ∧
    t.status.v = s.status.v

/-- R172: N successful STAMPs, with any commands between them but a WRF of IDCTR and with any number of failed STAMPs,
write ID = k, k+1, …, k+N-1 (mod 65536) from k = IDCTR before the first; after reset k is the free draw ID_INIT. -/
def Obligations.IdentificationSequence : Prop :=
  (∀ (is : List Instr) (s : State), (∀ v, Instr.wrf .idctr v ∉ is) →
    stampIds is s =
      (List.range (stampIds is s).length).map (fun j => BitVec.ofNat 16 ((s.idctr.toNat + j) % 65536)) ∧
    ∃ t, execAll is s = some t ∧ t.idctr.toNat = (s.idctr.toNat + (stampIds is s).length) % 65536) ∧
  State.reset.idctr = Config.idInit 0

/-! ## The clocked block -/

/-- The block behind its pins is the core machine: any run of clock edges is the run of the core machine over the
events those edges amount to, with the same registers and the same responses. Which event an edge amounts to (`edgeEvents`)
is the model's reading of the handshake (log entries 1 and 7, DEDUCED), and the list of the host's actions is the model's
choice (log entry 2). -/
def Obligations.ClockedBlockRefinesTheCoreMachine : Prop :=
  ∀ (latency : Latency) (pins : List Pins) (b : Clocked) (rest : List HostEvent),
    ∃ b', b.edges latency pins = .next b' ∧
      core.run pins.length ({ b.block with port := edgeEvents latency pins b.inFlight ++ rest } : State) =
        .next ({ b'.block with port := rest } : State)

/-- R52: acceptance, the wait with `cmd_ready` low and nothing changed, and the one response CMD_LATENCY cycles after
acceptance, which is that of the command captured at acceptance; R51, R230: after that edge `rsp_valid` is high for one cycle,
where `rst` is low. The model's inference (log entry 7, DEDUCED): the edge that completes a command accepts none, so that after
it `cmd_ready` is high and `rsp_valid` falls at the next edge whatever the command pins show. -/
def Obligations.ResponseAfterLatency : Prop :=
  ∀ (latency : Latency) (b : Clocked) (p : Pins),
    (b.accepts p = true ↔ p.cmdValid = true ∧ b.cmdReady p.rst = true ∧ p.rst = false) ∧
    (b.accepts p = true → ∀ ps : List Pins, (∀ q ∈ ps, q.rst = false) →
      (ps.length < latency.cycles → ∃ b', b.edges latency (p :: ps) = .next b' ∧
        b'.block = { b.block with rsp := none } ∧ b'.cmdReady false = false) ∧
      (ps.length = latency.cycles → ∃ b', b.edges latency (p :: ps) = .next b' ∧
        runCommand ⟨p.cmd, p.opa, p.opb⟩ { b.block with rsp := none } = .next b'.block ∧
        (∀ rst, b'.rspValid rst = !rst) ∧ b'.cmdReady false = true ∧
        ∀ q, ∃ b'', b'.edge latency q = .next b'' ∧ ∀ rst, b''.rspValid rst = false)) ∧
    (p.rst = false → p.cmdValid = false → b.inFlight = none →
      b.edge latency p = .next { b with block := { b.block with rsp := none } })

/-- R230: at an edge with `rst` high every register takes its reset value, the command in progress is abandoned with no
response and none of its writes, no command is accepted, and the next edge with `rst` low can accept one.
`cmd_ready` and `rsp_valid` are low at that edge, whatever completed before it, and `rsp_valid` stays low after it. Reset
draws HDR_INIT and ID_INIT in the model's own form (log entry 5). -/
def Obligations.ResetAbandonsTheCommandInProgress : Prop :=
  ∀ (latency : Latency) (b : Clocked) (p : Pins), p.rst = true →
    b.accepts p = false ∧ b.cmdReady p.rst = false ∧ b.rspValid p.rst = false ∧
    ∃ b', b.edge latency p = .next b' ∧ b'.inFlight = none ∧ (∀ rst, b'.rspValid rst = false) ∧
      (∃ n, b'.block.hdrOut = Config.hdrInit n ∧ b'.block.idctr = Config.idInit n) ∧
      b'.block.acc = 0 ∧ b'.block.status = ⟨false, false, false, false⟩ ∧
      ∀ q : Pins, q.rst = false → q.cmdValid = true → b'.accepts q = true

/-- R53: `hdr_out` changes only at an edge that completes a command which writes the header (or at reset), together with
`rsp_valid` (R230: where `rst` is low). -/
def Obligations.HdrOutChangesOnlyAtCompletion : Prop :=
  ∀ (latency : Latency) (b b' : Clocked) (p : Pins), b.edge latency p = .next b' → p.rst = false →
    b'.block.hdrOut ≠ b.block.hdrOut →
    (∀ rst, b'.rspValid rst = !rst) ∧
    ∃ f i, b.inFlight = some f ∧ f.wait = 0 ∧ runCommand f.command b.block = .next b'.block ∧
      decode f.command = .ok i ∧ writesHeader i = true

/-- R52, R238: `cmd`, `opa` and `opb` are captured at acceptance; what the host shows while the block is busy has no
effect on the block. -/
def Obligations.BusyBlockIgnoresTheCommandPins : Prop :=
  ∀ (latency : Latency) (b : Clocked) (p q : Pins), b.inFlight.isSome = true → p.rst = q.rst →
    b.edge latency p = b.edge latency q

/-! ## The assembler -/

/-- R82: every line whose numbers fit is the encoding of its command, and a line whose numbers do not fit the command
word's fields is refused. -/
def Obligations.AssemblerAgreesWithTheEncoder : Prop :=
  assemble .nop = some (encode .nop) ∧ assemble .sumclr = some (encode .sumclr) ∧
  assemble .sumrd = some (encode .sumrd) ∧ assemble .hcsum = some (encode .hcsum) ∧
  assemble .assign = some (encode .assign) ∧ assemble .valid = some (encode .valid) ∧
  (∀ w : Data, assemble (.sumadd w.toNat) = some (encode (.sumadd w))) ∧
  (∀ n sl, selectors[n]? = some sl →
    assemble (.rdf n) = some (encode (.rdf sl)) ∧ ∀ v : Data, assemble (.wrf n v.toNat) = some (encode (.wrf sl v))) ∧
  (∀ i : Fin 16, assemble (.rdw i.val) = some (encode (.rdw i)) ∧
    ∀ w : Data, assemble (.wrw i.val w.toNat) = some (encode (.wrw i w))) ∧
  (∀ (mf : Bool) (ttl : Byte) (dsz : Word) (src dst : Data),
    assemble (.stamp ttl.toNat mf.toNat dsz.toNat src.toNat dst.toNat) = some (encode (.stamp mf ttl dsz src dst))) ∧
  (∀ a : Data, assemble (.dsteq a.toNat) = some (encode (.dsteq a))) ∧
  (∀ i w, 15 < i → assemble (.rdw i) = none ∧ assemble (.wrw i w) = none) ∧
  (∀ t m n s d, 255 < t ∨ 1 < m ∨ 65535 < n → assemble (.stamp t m n s d) = none)

/-- R83: what the expansions of LDHDR, CLRHDR and CSUM do. -/
def Obligations.PseudoInstructionsDoWhatTheyName : Prop :=
  (∀ (ws : Vector Word 10) (s : State), ∃ cs t,
    assembleSource (.pseudo (.ldhdr (ws.map BitVec.toNat))) = some cs ∧ runAll cs s = some t ∧
    t = { s with hdr := ws, rsp := some ⟨0, .ok⟩ }) ∧
  (∀ s : State, ∃ cs t, assembleSource (.pseudo .clrhdr) = some cs ∧ runAll cs s = some t ∧
    t = { s with hdr := Vector.replicate 10 0, rsp := some ⟨0, .ok⟩ }) ∧
  (∀ (ws : List Word) (s : State), ∃ cs t, ∃ raw : Word,
    assembleSource (.pseudo (.csum (ws.map BitVec.toNat))) = some cs ∧ runAll cs s = some t ∧
    raw.toNat = onesSum (exactSum ws) ∧ t = { s with acc := raw, rsp := some ⟨raw ++ ~~~raw, .ok⟩ })
end

