-- ==== Sys2Proof/Laws/Checksum.lean ====
section
/-! SUPPORT. The one's-complement operations on exact integers (40_checksum.md R100 to R102), and what storing a checksum
leaves. -/

namespace Sys2Proof.Machine

/-- `ocadd` on exact integers (R101): no carry is lost. -/
theorem ocadd_toNat (a w : Word) :
    (ocadd a w).toNat = if a.toNat + w.toNat < 0x10000 then a.toNat + w.toNat else a.toNat + w.toNat - 0xFFFF := by
  have ha := a.isLt
  have hw := w.isLt
  have h1 : (1 : Word).toNat = 1 := rfl
  simp only [ocadd, BitVec.lt_def, BitVec.toNat_add]
  split <;> split <;> simp only [BitVec.toNat_add, h1] <;> omega

/-- A zero word never changes the sum (R111, corner cases). -/
@[simp] theorem ocadd_zero_right (a : Word) : ocadd a 0#16 = a := by
  have ha := a.isLt
  apply BitVec.eq_of_toNat_eq
  rw [ocadd_toNat, BitVec.toNat_zero, Nat.add_zero, if_pos (by omega)]

/-- A sum started from 0 with one word is that word. -/
@[simp] theorem ocadd_zero_left (w : Word) : ocadd 0#16 w = w := by
  have hw := w.isLt
  apply BitVec.eq_of_toNat_eq
  rw [ocadd_toNat, BitVec.toNat_zero, Nat.zero_add, if_pos (by omega)]

@[simp] theorem ocsum_nil : ocsum [] = 0#16 := rfl

/-- The sum of a sequence with one more word at its end. -/
theorem ocsum_concat (ws : List Word) (w : Word) : ocsum (ws ++ [w]) = ocadd (ocsum ws) w := by
  simp [ocsum]

/-- The low word of a zero-extended word is that word. -/
@[simp] theorem lowWord_zextWord (w : Word) : lowWord (zextWord w) = w := by
  ext i hi
  simp [lowWord, zextWord, hi]
  omega

/-- The checksum field is word 5 (10_state.md R21): writing it sets that word whole. -/
theorem setField_csum (h : Header) (v : Data) : setField h .csum v = h.set 5 (lowWord v) := by
  have hm : lowMask 16 = BitVec.allOnes 16 := by decide
  simp only [setField, fieldPlace, insertBits, hm, BitVec.shiftLeft_zero, BitVec.not_allOnes, BitVec.and_zero,
    BitVec.zero_or, BitVec.and_allOnes]
  rfl

/-- What `assignChecksum` stores and leaves in ACC: the complement of the sum with word 5 zero, and that sum. -/
theorem assignChecksum_eq (h : Header) :
    assignChecksum h = (h.set 5 (~~~ headerSum (h.set 5 0)), headerSum (h.set 5 0)) := by
  have hz : lowWord 0 = 0 := by decide
  simp only [assignChecksum, setField_csum, hz, lowWord_zextWord, Vector.set_set]

end Sys2Proof.Machine
end

