-- ==== Sys2Proof/Laws/Clocked.lean ====
section
/-! SUPPORT. What the two handshake outputs show with and without `rst`, and what a reset edge does. -/

namespace Sys2Proof.Machine

@[simp] theorem clocked_cmdReady_rst (b : Clocked) : b.cmdReady true = false := rfl
@[simp] theorem clocked_cmdReady_no_rst (b : Clocked) : b.cmdReady false = b.inFlight.isNone := rfl
@[simp] theorem clocked_rspValid_rst (b : Clocked) : b.rspValid true = false := rfl
@[simp] theorem clocked_rspValid_no_rst (b : Clocked) : b.rspValid false = b.block.rsp.isSome := rfl

/-- No response in the state, none on the port. -/
theorem clocked_rspValid_of_rsp_none (rst : Bool) (b : Clocked) (h : b.block.rsp = none) : b.rspValid rst = false := by
  cases rst <;> simp [h]

/-- An edge with `rst` high resets the registers and abandons what is in progress. -/
theorem clocked_edge_rst (latency : Latency) (p : Pins) (b : Clocked) (h : p.rst = true) :
    b.edge latency p = .next ⟨applyReset b.block, none⟩ := by
  simp [Clocked.edge, edgeEvent, inFlightAfter, runEvent, h]

end Sys2Proof.Machine
end

