-- ==== Sys2Proof/Laws/Header.lean ====
section
/-! SUPPORT. The bit operations the header fields are made of (10_state.md R21), bit by bit, and the 160-bit view. -/

namespace Sys2Proof.Machine

/-- The bits of a mask of `width` ones. -/
theorem getLsbD_lowMask (width j : Nat) : (lowMask width).getLsbD j = (decide (j < 16) && decide (j < width)) := by
  simp [lowMask, BitVec.getLsbD_ofNat, Nat.testBit_two_pow_sub_one]

/-- The bits of a word with some of its bits replaced. -/
theorem getLsbD_insertBits (w v : Word) (lo width j : Nat) (hj : j < 16) :
    (insertBits w lo width v).getLsbD j =
      if lo ≤ j ∧ j < lo + width then v.getLsbD (j - lo) else w.getLsbD j := by
  simp only [insertBits, BitVec.getLsbD_or, BitVec.getLsbD_and, BitVec.getLsbD_not, BitVec.getLsbD_shiftLeft,
    getLsbD_lowMask, hj, decide_true, Bool.true_and]
  by_cases h1 : j < lo
  · have h2 : ¬ lo ≤ j := by omega
    simp [h1, h2]
  · have h2 : lo ≤ j := by omega
    have h3 : j - lo < 16 := by omega
    by_cases h4 : j < lo + width
    · have h5 : j - lo < width := by omega
      simp [h1, h2, h3, h4, h5]
    · have h5 : ¬ j - lo < width := by omega
      simp [h1, h4, h5]

/-- The bits of a field's value. -/
theorem getLsbD_readBits (w : Word) (lo width j : Nat) :
    (readBits w lo width).getLsbD j = (decide (j < 32) && (decide (j < width) && w.getLsbD (lo + j))) := by
  simp [readBits, BitVec.getLsbD_setWidth, BitVec.getLsbD_extractLsb']

/-- A replaced field reads back as the low bits of what was written. -/
theorem readBits_insertBits_self (w v : Word) (lo width : Nat) (h : lo + width ≤ 16) :
    readBits (insertBits w lo width v) lo width = readBits v 0 width := by
  apply BitVec.eq_of_getLsbD_eq
  intro j hj
  rw [getLsbD_readBits, getLsbD_readBits]
  by_cases hw : j < width
  · rw [getLsbD_insertBits _ _ _ _ _ (by omega), if_pos ⟨by omega, by omega⟩]
    simp
  · simp [hw]

/-- A field apart from the replaced one reads as before. -/
theorem readBits_insertBits_of_disjoint (w v : Word) (lo width lo' width' : Nat) (h : lo' + width' ≤ 16)
    (hd : lo' + width' ≤ lo ∨ lo + width ≤ lo') :
    readBits (insertBits w lo width v) lo' width' = readBits w lo' width' := by
  apply BitVec.eq_of_getLsbD_eq
  intro j hj
  rw [getLsbD_readBits, getLsbD_readBits]
  by_cases hw : j < width'
  · rw [getLsbD_insertBits _ _ _ _ _ (by omega), if_neg (by omega)]
  · simp [hw]

/-- Word `i` of the header made of 160 bits (20_memory.md R51). -/
theorem headerOfBits_getElem (b : BitVec 160) (i : Nat) (h : i < 10) :
    (headerOfBits b)[i] = b.extractLsb' (144 - 16 * i) 16 := by
  simp [headerOfBits]

/-- The 160-bit view of the header made of 160 bits is those bits. -/
@[simp] theorem headerBits_headerOfBits (b : BitVec 160) : headerBits (headerOfBits b) = b := by
  apply BitVec.eq_of_getLsbD_eq
  intro j hj
  simp only [headerBits, headerOfBits_getElem, BitVec.getLsbD_append, BitVec.getLsbD_extractLsb']
  repeat' split
  all_goals
    rw [decide_eq_true (by omega), Bool.true_and]
    exact congrArg b.getLsbD (by omega)

end Sys2Proof.Machine
end

