-- ==== Sys2Proof/Laws/State.lean ====
section
/-! SUPPORT. One lemma per field of State per shared update, so that no later proof unfolds a record update; and the same for
STATUS. -/

namespace Sys2Proof.Machine

/-! ## respond, raiseError, clearResponse -/

@[simp] theorem respond_hdr (d : Data) (s : State) : (respond d s).hdr = s.hdr := rfl
@[simp] theorem respond_acc (d : Data) (s : State) : (respond d s).acc = s.acc := rfl
@[simp] theorem respond_idctr (d : Data) (s : State) : (respond d s).idctr = s.idctr := rfl
@[simp] theorem respond_status (d : Data) (s : State) : (respond d s).status = s.status := rfl
@[simp] theorem respond_rsp (d : Data) (s : State) : (respond d s).rsp = some ⟨d, .ok⟩ := rfl
@[simp] theorem respond_packetSize (d : Data) (s : State) : (respond d s).packetSize = s.packetSize := rfl
@[simp] theorem respond_port (d : Data) (s : State) : (respond d s).port = s.port := rfl
@[simp] theorem respond_resetCount (d : Data) (s : State) : (respond d s).resetCount = s.resetCount := rfl

@[simp] theorem raiseError_hdr (e : ErrorCode) (s : State) : (raiseError e s).hdr = s.hdr := rfl
@[simp] theorem raiseError_acc (e : ErrorCode) (s : State) : (raiseError e s).acc = s.acc := rfl
@[simp] theorem raiseError_idctr (e : ErrorCode) (s : State) : (raiseError e s).idctr = s.idctr := rfl
@[simp] theorem raiseError_status (e : ErrorCode) (s : State) : (raiseError e s).status = s.status.record e := rfl
@[simp] theorem raiseError_rsp (e : ErrorCode) (s : State) : (raiseError e s).rsp = some ⟨0, e.code⟩ := rfl
@[simp] theorem raiseError_packetSize (e : ErrorCode) (s : State) : (raiseError e s).packetSize = s.packetSize := rfl
@[simp] theorem raiseError_port (e : ErrorCode) (s : State) : (raiseError e s).port = s.port := rfl
@[simp] theorem raiseError_resetCount (e : ErrorCode) (s : State) : (raiseError e s).resetCount = s.resetCount := rfl

@[simp] theorem clearResponse_hdr (s : State) : (clearResponse s).hdr = s.hdr := rfl
@[simp] theorem clearResponse_acc (s : State) : (clearResponse s).acc = s.acc := rfl
@[simp] theorem clearResponse_idctr (s : State) : (clearResponse s).idctr = s.idctr := rfl
@[simp] theorem clearResponse_status (s : State) : (clearResponse s).status = s.status := rfl
@[simp] theorem clearResponse_rsp (s : State) : (clearResponse s).rsp = none := rfl
@[simp] theorem clearResponse_packetSize (s : State) : (clearResponse s).packetSize = s.packetSize := rfl
@[simp] theorem clearResponse_port (s : State) : (clearResponse s).port = s.port := rfl
@[simp] theorem clearResponse_resetCount (s : State) : (clearResponse s).resetCount = s.resetCount := rfl

/-! ## The port and reset -/

@[simp] theorem presentCommand_hdr (c : Command) (s : State) : (presentCommand c s).hdr = s.hdr := rfl
@[simp] theorem presentCommand_acc (c : Command) (s : State) : (presentCommand c s).acc = s.acc := rfl
@[simp] theorem presentCommand_idctr (c : Command) (s : State) : (presentCommand c s).idctr = s.idctr := rfl
@[simp] theorem presentCommand_status (c : Command) (s : State) : (presentCommand c s).status = s.status := rfl
@[simp] theorem presentCommand_rsp (c : Command) (s : State) : (presentCommand c s).rsp = s.rsp := rfl
@[simp] theorem presentCommand_packetSize (c : Command) (s : State) : (presentCommand c s).packetSize = s.packetSize := rfl
@[simp] theorem presentCommand_port (c : Command) (s : State) : (presentCommand c s).port = .command c :: s.port := rfl
@[simp] theorem presentCommand_resetCount (c : Command) (s : State) : (presentCommand c s).resetCount = s.resetCount := rfl

@[simp] theorem applyReset_hdr (s : State) : (applyReset s).hdr = headerOfBits (Config.hdrInit (s.resetCount + 1)) := rfl
@[simp] theorem applyReset_acc (s : State) : (applyReset s).acc = 0 := rfl
@[simp] theorem applyReset_idctr (s : State) : (applyReset s).idctr = Config.idInit (s.resetCount + 1) := rfl
@[simp] theorem applyReset_status (s : State) : (applyReset s).status = ⟨false, false, false, false⟩ := rfl
@[simp] theorem applyReset_rsp (s : State) : (applyReset s).rsp = none := rfl
@[simp] theorem applyReset_packetSize (s : State) : (applyReset s).packetSize = s.packetSize := rfl
@[simp] theorem applyReset_port (s : State) : (applyReset s).port = s.port := rfl
@[simp] theorem applyReset_resetCount (s : State) : (applyReset s).resetCount = s.resetCount + 1 := rfl

/-! ## STATUS -/

@[simp] theorem status_record_v (e : ErrorCode) (st : Status) : (st.record e).v = st.v := by cases e <;> rfl
@[simp] theorem status_setV_v (b : Bool) (st : Status) : (st.setV b).v = b := rfl
@[simp] theorem status_setV_ill (b : Bool) (st : Status) : (st.setV b).ill = st.ill := rfl
@[simp] theorem status_setV_rng (b : Bool) (st : Status) : (st.setV b).rng = st.rng := rfl
@[simp] theorem status_setV_cap (b : Bool) (st : Status) : (st.setV b).cap = st.cap := rfl
@[simp] theorem status_sticky_setV (e : ErrorCode) (b : Bool) (st : Status) : (st.setV b).sticky e = st.sticky e := by
  cases e <;> rfl

/-- An error sets its own sticky bit. -/
@[simp] theorem status_sticky_record_self (e : ErrorCode) (st : Status) : (st.record e).sticky e = true := by
  cases e <;> rfl

/-- An error leaves every other sticky bit as it was. -/
theorem status_sticky_record_ne (e e' : ErrorCode) (st : Status) (h : e' ≠ e) :
    (st.record e).sticky e' = st.sticky e' := by
  cases e <;> cases e' <;> first | rfl | exact absurd rfl h

/-- No error clears a sticky bit. -/
theorem status_sticky_record_of_sticky (e e' : ErrorCode) (st : Status) (h : st.sticky e' = true) :
    (st.record e).sticky e' = true := by
  by_cases he : e' = e
  · subst he; exact status_sticky_record_self _ _
  · rw [status_sticky_record_ne e e' st he]; exact h

/-- An error code's response code reports an error. -/
@[simp] theorem errorCode_code_ne_ok (e : ErrorCode) : e.code ≠ .ok := by cases e <;> decide

/-! ## What WRF writes -/

@[simp] theorem writeSelector_acc (sel : Selector) (v : Data) (s : State) : (writeSelector sel v s).acc = s.acc := by
  cases sel <;> rfl
@[simp] theorem writeSelector_status (sel : Selector) (v : Data) (s : State) :
    (writeSelector sel v s).status = s.status := by cases sel <;> rfl
@[simp] theorem writeSelector_rsp (sel : Selector) (v : Data) (s : State) : (writeSelector sel v s).rsp = s.rsp := by
  cases sel <;> rfl
@[simp] theorem writeSelector_packetSize (sel : Selector) (v : Data) (s : State) :
    (writeSelector sel v s).packetSize = s.packetSize := by cases sel <;> rfl
@[simp] theorem writeSelector_port (sel : Selector) (v : Data) (s : State) :
    (writeSelector sel v s).port = s.port := by cases sel <;> rfl
@[simp] theorem writeSelector_resetCount (sel : Selector) (v : Data) (s : State) :
    (writeSelector sel v s).resetCount = s.resetCount := by cases sel <;> rfl

end Sys2Proof.Machine
end

