-- ==== Sys2Proof/Laws/Exec.lean ====
section
/-! SUPPORT. What one instruction can do, said once: the meaning each arm of exec calls, the fields no instruction touches,
and the two ways an instruction can end. Then the same for a whole command and for a step. -/

namespace Sys2Proof.Machine

/-- The ways an instruction can end: an error, which is `raiseError` and nothing else, or a response with code OK that
leaves the sticky bits as they were. -/
def EndsWell (s t : State) : Prop :=
  ∃ d, t.rsp = some ⟨d, .ok⟩ ∧ ∀ e, t.status.sticky e = s.status.sticky e

/-- A response with code OK over a state with the sticky bits of `s`. -/
theorem endsWell_respond (s u : State) (d : Data) (h : ∀ e, u.status.sticky e = s.status.sticky e) :
    EndsWell s (respond d u) := ⟨d, rfl, h⟩

/-- The inversion of `exec`: every instruction answers a next state, by an error or with code OK. -/
theorem exec_cases (i : Instr) (s : State) :
    ∃ t, exec i s = .next t ∧ ((∃ e, t = raiseError e s) ∨ EndsWell s t) := by
  cases i with
  | nop => exact ⟨_, rfl, .inr (endsWell_respond _ _ _ fun _ => rfl)⟩
  | sumclr => exact ⟨_, rfl, .inr (endsWell_respond _ _ _ fun _ => rfl)⟩
  | sumadd opa =>
    refine ⟨_, rfl, ?_⟩
    split
    · exact .inr (endsWell_respond _ _ _ fun _ => rfl)
    · exact .inl ⟨_, rfl⟩
  | sumrd => exact ⟨_, rfl, .inr (endsWell_respond _ _ _ fun _ => rfl)⟩
  | hcsum => exact ⟨_, rfl, .inr (endsWell_respond _ _ _ fun _ => rfl)⟩
  | assign => exact ⟨_, rfl, .inr (endsWell_respond _ _ _ fun _ => rfl)⟩
  | valid => exact ⟨_, rfl, .inr (endsWell_respond _ _ _ fun e => status_sticky_setV e _ _)⟩
  | rdf sel => exact ⟨_, rfl, .inr (endsWell_respond _ _ _ fun _ => rfl)⟩
  | wrf sel opa =>
    refine ⟨_, rfl, ?_⟩
    split
    · split
      · exact .inr (endsWell_respond _ _ _ fun e => by rw [writeSelector_status])
      · exact .inl ⟨_, rfl⟩
    · exact .inl ⟨_, rfl⟩
  | rdw i =>
    refine ⟨_, rfl, ?_⟩
    split
    · exact .inr (endsWell_respond _ _ _ fun _ => rfl)
    · exact .inl ⟨_, rfl⟩
  | wrw i opa =>
    refine ⟨_, rfl, ?_⟩
    split
    · split
      · exact .inr (endsWell_respond _ _ _ fun _ => rfl)
      · exact .inl ⟨_, rfl⟩
    · exact .inl ⟨_, rfl⟩
  | stamp mf ttl dsz src dst =>
    refine ⟨_, rfl, ?_⟩
    split
    · exact .inl ⟨_, rfl⟩
    · exact .inr (endsWell_respond _ _ _ fun _ => rfl)
  | dsteq a => exact ⟨_, rfl, .inr (endsWell_respond _ _ _ fun _ => rfl)⟩

/-- No instruction touches PACKET_SIZE, the host's list or the reset counter. -/
theorem exec_frame (i : Instr) (s t : State) (h : exec i s = .next t) :
    t.packetSize = s.packetSize ∧ t.port = s.port ∧ t.resetCount = s.resetCount := by
  cases i <;> simp only [exec, execNop, execSumclr, execSumadd, execSumrd, execHcsum, execAssign, execValid, execRdf,
    execWrf, execRdw, execWrw, execStamp, execDsteq, Host.Outcome.next.injEq] at h <;> subst h <;>
    (repeat' split) <;> simp

/-- A whole command is `exec` of what it decodes to. -/
theorem runCommand_of_decode (c : Command) (i : Instr) (s : State) (h : decode c = .ok i) :
    runCommand c s = exec i s := by
  simp only [runCommand, h]

/-- A command whose word does not decode ends with ILLEGAL. -/
theorem runCommand_of_illegal (c : Command) (why : Illegal) (s : State) (h : decode c = .error why) :
    runCommand c s = .next (raiseError .illegal s) := by
  simp only [runCommand, h]

/-- The inversion of a whole command. -/
theorem runCommand_cases (c : Command) (s : State) :
    ∃ t, runCommand c s = .next t ∧ ((∃ e, t = raiseError e s) ∨ EndsWell s t) := by
  cases h : decode c with
  | ok i => rw [runCommand_of_decode c i s h]; exact exec_cases i s
  | error why => exact ⟨_, runCommand_of_illegal c why s h, .inl ⟨_, rfl⟩⟩

/-- No command touches PACKET_SIZE, the host's list or the reset counter. -/
theorem runCommand_frame (c : Command) (s t : State) (h : runCommand c s = .next t) :
    t.packetSize = s.packetSize ∧ t.port = s.port ∧ t.resetCount = s.resetCount := by
  cases hd : decode c with
  | ok i => exact exec_frame i s t (by rw [← runCommand_of_decode c i s hd, h])
  | error why =>
    rw [runCommand_of_illegal c why s hd] at h
    cases h
    exact ⟨rfl, rfl, rfl⟩

/-- A step is the host's next action, carried out in the state with that action taken off the list. -/
theorem step_cons (s : State) (e : HostEvent) (rest : List HostEvent) (h : s.port = e :: rest) :
    step s = runEvent e { s with port := rest } := by
  simp only [step, runPort, takeEvent, h]

/-- A step of a host that presents nothing shows no response and changes nothing else. -/
theorem step_nil (s : State) (h : s.port = []) : step s = .next (clearResponse s) := by
  simp only [step, runPort, takeEvent, h, runEvent]

/-- The interface's placed command is the next thing a step runs. -/
theorem step_withFetchWord (s : State) (nbits w : Nat) :
    step (s.withFetchWord nbits w) = runCommand (Command.ofTableWord nbits w) s := by
  rw [step_cons (s.withFetchWord nbits w) (.command (Command.ofTableWord nbits w)) s.port rfl]
  rfl

end Sys2Proof.Machine
end

