-- ==== Sys2Proof/Laws/PerInstr.lean ====
section
/-! SUPPORT. Families of facts about the instruction as syntax, one lemma per constructor. -/

namespace Sys2Proof.Laws

/-- The opcode an instruction's command word carries in `cmd[3:0]`. -/
def opcodeOf : Instr → Opcode
  | .nop => .nop
  | .sumclr => .sumclr
  | .sumadd _ => .sumadd
  | .sumrd => .sumrd
  | .hcsum => .hcsum
  | .assign => .assign
  | .valid => .valid
  | .rdf _ => .rdf
  | .wrf _ _ => .wrf
  | .rdw _ => .rdw
  | .wrw _ _ => .wrw
  | .stamp _ _ _ _ _ => .stamp
  | .dsteq _ => .dsteq

end Sys2Proof.Laws

namespace Sys2Proof.Laws.EncodedFormat

/-- The encoded word has its opcode in `cmd[3:0]` and 0 in every bit its opcode does not use (30_encoding.md R72, R76). -/
def Statement (i : Instr) : Prop :=
  Opcode.ofBits ((encode i).cmd.extractLsb' 0 4) = some (opcodeOf i) ∧ (opcodeOf i).unusedClear (encode i).cmd = true

/-- A word with a selector or an index has its opcode in the low four bits and 0 above bit 7. -/
theorem selWord_bits (op : Opcode) (sel : Nat) (h : sel < 16) :
    (selWord op sel).extractLsb' 0 4 = BitVec.ofNat 4 op.number ∧ (selWord op sel).extractLsb' 8 24 = 0#24 := by
  have ho : op.number < 16 := by cases op <;> decide
  constructor <;>
    (apply BitVec.eq_of_toNat_eq
     simp only [selWord, BitVec.extractLsb'_toNat, BitVec.toNat_ofNat, Nat.shiftRight_eq_div_pow]
     omega)

/-- STAMP's word has its opcode in the low four bits and 0 in bits 7 to 5. -/
theorem stampWord_bits (mf : Bool) (ttl : Byte) (dsz : Word) :
    (stampWord mf ttl dsz).extractLsb' 0 4 = 0xB#4 ∧ (stampWord mf ttl dsz).extractLsb' 5 3 = 0#3 := by
  have hm : mf.toNat < 2 := mf.toNat_lt
  have ht := ttl.isLt
  have hd := dsz.isLt
  have ho : Opcode.stamp.number = 11 := rfl
  constructor <;>
    (apply BitVec.eq_of_toNat_eq
     simp only [stampWord, ho, BitVec.extractLsb'_toNat, BitVec.toNat_ofNat, Nat.shiftRight_eq_div_pow]
     omega)

/-- Every selector's number fits the four bits of `cmd[7:4]`. -/
theorem selector_number_lt (sel : Selector) : sel.number < 16 := by
  rcases sel with f | _ | _
  · cases f <;> decide
  all_goals decide

/-- A word of one opcode and nothing else has the encoded format. -/
theorem plainWord_format (op : Opcode) :
    Opcode.ofBits ((plainWord op).extractLsb' 0 4) = some op ∧ op.unusedClear (plainWord op) = true := by
  cases op <;> decide

/-- A word with a selector or an index has the encoded format. -/
theorem selWord_format (op : Opcode) (sel : Nat) (hs : sel < 16) (h : op ∈ [Opcode.rdf, .wrf, .rdw, .wrw]) :
    Opcode.ofBits ((selWord op sel).extractLsb' 0 4) = some op ∧ op.unusedClear (selWord op sel) = true := by
  obtain ⟨h1, h2⟩ := selWord_bits op sel hs
  rw [h1]
  simp only [List.mem_cons, List.not_mem_nil, or_false] at h
  rcases h with rfl | rfl | rfl | rfl <;> exact ⟨by decide, by simp only [Opcode.unusedClear, h2]; decide⟩

theorem nop : Statement .nop := plainWord_format .nop
theorem sumclr : Statement .sumclr := plainWord_format .sumclr
theorem sumadd (opa : Data) : Statement (.sumadd opa) := plainWord_format .sumadd
theorem sumrd : Statement .sumrd := plainWord_format .sumrd
theorem hcsum : Statement .hcsum := plainWord_format .hcsum
theorem assign : Statement .assign := plainWord_format .assign
theorem valid : Statement .valid := plainWord_format .valid
theorem rdf (sel : Selector) : Statement (.rdf sel) :=
  selWord_format .rdf sel.number (selector_number_lt sel) (by decide)
theorem wrf (sel : Selector) (opa : Data) : Statement (.wrf sel opa) :=
  selWord_format .wrf sel.number (selector_number_lt sel) (by decide)
theorem rdw (i : Fin 16) : Statement (.rdw i) := selWord_format .rdw i.val i.isLt (by decide)
theorem wrw (i : Fin 16) (opa : Data) : Statement (.wrw i opa) := selWord_format .wrw i.val i.isLt (by decide)
theorem stamp (mf : Bool) (ttl : Byte) (dsz : Word) (src dst : Data) : Statement (.stamp mf ttl dsz src dst) := by
  obtain ⟨h1, h2⟩ := stampWord_bits mf ttl dsz
  refine ⟨?_, ?_⟩
  · rw [show (encode (.stamp mf ttl dsz src dst)).cmd = stampWord mf ttl dsz from rfl, h1]; rfl
  · simp only [encode, opcodeOf, Opcode.unusedClear, h2]; decide
theorem dsteq (a : Data) : Statement (.dsteq a) := plainWord_format .dsteq

end Sys2Proof.Laws.EncodedFormat
end

