-- ==== Sys2Proof/Tests/Slice0.lean ====
section
/-! SUPPORT. The model's own tests. Expected values come from the spec: from 95_test_vectors.md unless a comment names
another file; then, for every statement with hypotheses, a witness that meets them. -/

namespace Sys2Proof.Tests

open Sys2Proof.Machine Sys2Proof.Claims

/-- A block with PACKET_SIZE 64 and no host action. -/
def blk (hdr : Header) (acc idctr : Word) : State :=
  ⟨hdr, acc, idctr, ⟨false, false, false, false⟩, none, ⟨64, by decide, by decide⟩, [], 0⟩

/-- The next state of an outcome. -/
def nextOf (o : Host.Outcome State Fault Refusal) : Option State :=
  match o with
  | .next t => some t
  | _ => none

/-- The response a command gets. -/
def answer (c : Command) (s : State) : Option Response := (nextOf (runCommand c s)).bind (·.rsp)

/-- The header a command leaves. -/
def hdrAfter (c : Command) (s : State) : Option Header := (nextOf (runCommand c s)).map (·.hdr)

/-- The source's example header before ASSIGN (L1-2), any checksum. -/
def example1 : Header := #v[0x4500, 0x0014, 0, 0, 0, 0x1234, 0, 0, 0, 0]

/-- The received header of L3-4. -/
def example2 : Header :=
  #v[0x4500, 0x0073, 0x0000, 0x4000, 0x4011, 0xB861, 0xC0A8, 0x0001, 0xC0A8, 0x00C7]

/-- The start of the first row of part 2.5. -/
def beforeStamp : Header :=
  #v[0x4500, 0xA5A5, 0xA5A5, 0x0000, 0xA511, 0xA5A5, 0xA5A5, 0xA5A5, 0xA5A5, 0xA5A5]

/-! ## WellFormed smoke -/

theorem test_wellFormed_refuses_wrf_status : (Instr.wrf .status 0).wellFormed = false := by decide
theorem test_wellFormed_refuses_rdw_10 : (Instr.rdw 10).wellFormed = false := by decide
theorem test_wellFormed_refuses_wrw_15 : (Instr.wrw 15 0).wellFormed = false := by decide
theorem test_wellFormed_accepts_index_9 : (Instr.rdw 9).wellFormed = true ∧ (Instr.wrw 9 0).wellFormed = true := by
  decide

/-! ## Decoding: a word written out for every constructor (30_encoding.md R71, R72, R82) -/

theorem test_decode_nop : decode ⟨0b00000000000000000000000000000000, 7, 8⟩ = .ok .nop := by decide
theorem test_decode_sumclr : decode ⟨0b00000000000000000000000000000001, 7, 8⟩ = .ok .sumclr := by decide
theorem test_decode_sumadd : decode ⟨0b00000000000000000000000000000010, 0xF203, 8⟩ = .ok (.sumadd 0xF203) := by decide
theorem test_decode_sumrd : decode ⟨0b00000000000000000000000000000011, 7, 8⟩ = .ok .sumrd := by decide
theorem test_decode_hcsum : decode ⟨0b00000000000000000000000000000100, 7, 8⟩ = .ok .hcsum := by decide
theorem test_decode_assign : decode ⟨0b00000000000000000000000000000101, 7, 8⟩ = .ok .assign := by decide
theorem test_decode_valid : decode ⟨0b00000000000000000000000000000110, 7, 8⟩ = .ok .valid := by decide
theorem test_decode_rdf : decode ⟨0b00000000000000000000000011100111, 7, 8⟩ = .ok (.rdf .status) := by decide
theorem test_decode_wrf :
    decode ⟨0b00000000000000000000000010111000, 0x01020304, 8⟩ = .ok (.wrf (.field .src) 0x01020304) := by decide
theorem test_decode_rdw : decode ⟨0b00000000000000000000000001011001, 7, 8⟩ = .ok (.rdw 5) := by decide
theorem test_decode_wrw : decode ⟨0b00000000000000000000000000111010, 0x4000, 8⟩ = .ok (.wrw 3 0x4000) := by decide
theorem test_decode_stamp : decode ⟨0b00000000000100000100000000011011, 0xC0A80001, 0xFFFFFFFF⟩ =
    .ok (.stamp true 64 16 0xC0A80001 0xFFFFFFFF) := by decide
theorem test_decode_dsteq : decode ⟨0b00000000000000000000000000001100, 0xC0A800C7, 8⟩ = .ok (.dsteq 0xC0A800C7) := by
  decide

/-- The rejections of 30_encoding.md R77, each by its name. -/
theorem test_decode_rejects :
    decode ⟨0xFFFFFFFD, 0, 0⟩ = .error .reservedOpcode ∧ decode ⟨0x00000010, 0, 0⟩ = .error .unusedBits ∧
    decode ⟨0x00000147, 0, 0⟩ = .error .unusedBits ∧ decode ⟨0x0000002B, 0, 0⟩ = .error .unusedBits ∧
    decode ⟨0x000000F7, 0, 0⟩ = .error .selector ∧ decode ⟨0x000000E8, 0, 0⟩ = .error .selector ∧
    decode ⟨0x000000A9, 0, 0⟩ = .error .wordIndex ∧ decode ⟨0x000000FA, 0, 0⟩ = .error .wordIndex := by decide

/-- Bits 63..32 of a table word are `opa`, bits 95..64 `opb`; the bits above `nbits` count as 0. -/
theorem test_decodeTableWord :
    decodeTableWord 32 0x5_00000002 = some (.sumadd 0) ∧ decodeTableWord 64 0x5_00000002 = some (.sumadd 5) ∧
    decodeTableWord 32 0xD = none := by decide

/-! ## The commands -/

/-- Part 2.1. -/
theorem test_ocadd_vectors :
    ocadd 0 0 = 0 ∧ ocadd 0 0xFFFF = 0xFFFF ∧ ocadd 0xFFFF 0 = 0xFFFF ∧ ocadd 0xFFFF 0xFFFF = 0xFFFF ∧
    ocadd 0xFFFF 1 = 1 ∧ ocadd 0x8000 0x8000 = 1 ∧ ocadd 0x1234 0xEDCB = 0xFFFF ∧ ocadd 0x1234 0xEDCC = 1 ∧
    ocadd 1 0xFFFF = 1 ∧ ocadd 0xFFFE 1 = 0xFFFF := by decide

theorem test_nop : nextOf (exec .nop (blk example1 3 4)) = some { blk example1 3 4 with rsp := some ⟨0, .ok⟩ } := by decide
theorem test_sumclr : nextOf (exec .sumclr (blk example1 0x1234 4)) =
    some { blk example1 0 4 with rsp := some ⟨0, .ok⟩ } := by decide
theorem test_sumadd_carry : answer ⟨2, 0xEDCC, 0⟩ (blk example1 0x1234 4) = some ⟨1, .ok⟩ := by decide
theorem test_sumadd_range : nextOf (runCommand ⟨2, 0x10000, 0⟩ (blk example1 0x1234 4)) =
    some { blk example1 0x1234 4 with status := ⟨false, false, true, false⟩, rsp := some ⟨0, .range⟩ } := by decide
theorem test_sumrd : answer ⟨3, 0, 0⟩ (blk example1 0xDDF2 4) = some ⟨0xDDF2220D, .ok⟩ := by decide
theorem test_hcsum : answer ⟨4, 0, 0⟩ (blk (example2.set 4 0x4111) 0 4) = some ⟨0xFEFF, .ok⟩ := by decide
theorem test_assign : nextOf (runCommand ⟨5, 0, 0⟩ (blk example1 0 4)) =
    some { blk (example1.set 5 0xBAEB) 0x4514 4 with rsp := some ⟨0xBAEB, .ok⟩ } := by decide
theorem test_assign_illegal : answer ⟨0x105, 0, 0⟩ (blk example1 0 4) = some ⟨0, .illegal⟩ := by decide
theorem test_valid : nextOf (runCommand ⟨6, 0, 0⟩ (blk example2 0 4)) =
    some { blk example2 0xFFFF 4 with status := ⟨true, false, false, false⟩, rsp := some ⟨1, .ok⟩ } := by decide
theorem test_valid_fails : nextOf (runCommand ⟨6, 0, 0⟩ (blk (example2.set 4 0x4111) 0 4)) =
    some { blk (example2.set 4 0x4111) 0x0100 4 with rsp := some ⟨0, .ok⟩ } := by decide
theorem test_rdf_flags : answer ⟨0x67, 0, 0⟩ (blk (example1.set 3 0x2000) 0 4) = some ⟨1, .ok⟩ := by decide
theorem test_rdf_status : answer ⟨0xE7, 0, 0⟩ { blk example1 0 4 with status := ⟨false, true, true, false⟩ } =
    some ⟨6, .ok⟩ := by decide
theorem test_wrf_dscp : hdrAfter ⟨0x28, 0x2E, 0⟩ (blk example1 0 4) = some (example1.set 0 0x45B8) := by decide
theorem test_wrf_frag : hdrAfter ⟨0x78, 0, 0⟩ (blk (example1.set 3 0xFFFF) 0 4) = some (example1.set 3 0xE000) ∧
    answer ⟨0x78, 0x2000, 0⟩ (blk example1 0 4) = some ⟨0, .range⟩ := by decide
theorem test_rdw : answer ⟨0x59, 0, 0⟩ (blk example2 0 4) = some ⟨0xB861, .ok⟩ := by decide
theorem test_wrw : hdrAfter ⟨0x3A, 0x4000, 0⟩ (blk example1 0 4) = some (example1.set 3 0x4000) ∧
    answer ⟨0x3A, 0x14000, 0⟩ (blk example1 0 4) = some ⟨0, .range⟩ := by decide

/-- Part 2.5, first row. -/
theorem test_stamp : nextOf (runCommand ⟨0x0008400B, 0xC0A80001, 0xFFFFFFFF⟩ (blk beforeStamp 0 0xFFFF)) =
    some { blk #v[0x4500, 0x001C, 0xFFFF, 0x0000, 0x4011, 0xBA28, 0xC0A8, 0x0001, 0xFFFF, 0xFFFF] 0x45D7 0 with
      rsp := some ⟨0xFFFFBA28, .ok⟩ } := by decide

/-- Part 2.5: `dsz` one past P, and DF kept with MF set. -/
theorem test_stamp_capacity_and_flags :
    answer ⟨0x0029400B, 0, 0⟩ (blk beforeStamp 0 0) = some ⟨0, .capacity⟩ ∧
    answer ⟨0x0000011B, 0x7F000001, 0x7F000001⟩ (blk #v[0x4500, 0, 0, 0x4000, 0x0011, 0, 0, 0, 0, 0] 0 0x8000) =
      some ⟨0x8000DBD6, .ok⟩ := by decide
theorem test_dsteq : answer ⟨0xC, 0xC0A800C7, 0⟩ (blk example2 0 4) = some ⟨1, .ok⟩ ∧
    answer ⟨0xC, 0x00A800C7, 0⟩ (blk example2 0 4) = some ⟨0, .ok⟩ := by decide

/-! ## The machine -/

/-- `hdr_out` of L3-1. -/
theorem test_hdrOut : (blk (example1.set 5 0xBAEB) 0 0).hdrOut = 0x45000014_00000000_0000BAEB_00000000_00000000 := by
  decide

/-- L1-3. -/
theorem test_payloadCap :
    payloadCap ⟨20, by decide, by decide⟩ = 0 ∧ payloadCap ⟨27, by decide, by decide⟩ = 0 ∧
    payloadCap ⟨28, by decide, by decide⟩ = 8 ∧ payloadCap ⟨30, by decide, by decide⟩ = 8 ∧
    payloadCap ⟨64, by decide, by decide⟩ = 40 ∧ payloadCap ⟨1500, by decide, by decide⟩ = 1480 ∧
    payloadCap ⟨65535, by decide, by decide⟩ = 65512 := by decide

/-- The first step after reset runs the command placed for it, whatever the reset draws: NOP answers 0. -/
theorem test_first_step_runs_the_command :
    (nextOf (step (State.reset.withFetchWord 32 0))).bind (·.rsp) = some ⟨0, .ok⟩ := by decide

/-- A latency of two: accepted, one edge of waiting, then the response (20_memory.md R52). -/
theorem test_clocked_nop :
    (match Clocked.edges ⟨2, by decide⟩
        [⟨false, true, 0, 0, 0⟩, ⟨false, true, 5, 0, 0⟩, ⟨false, false, 0, 0, 0⟩] ⟨blk example1 0 4, none⟩ with
      | .next b => b.block.rsp
      | _ => none) = some ⟨0, .ok⟩ := by decide

/-! ## The assembler (30_encoding.md R82, R83; the lines of L3-3 and L3-4) -/

theorem test_assemble_stamp :
    assembleText "STAMP ttl=64, mf=0, len=8, src=192.168.0.1, dst=255.255.255.255" =
      some [⟨0x0008400B, 0xC0A80001, 0xFFFFFFFF⟩] := by decide
theorem test_assemble_wrf : assembleText "WRF IDCTR, 0xFFFF" = some [⟨0xD8, 0xFFFF, 0⟩] := by decide
theorem test_assemble_refuses : assembleText "RDW 16" = none ∧ assembleText "NOP 1" = none := by decide
theorem test_assemble_csum : assembleText "CSUM 0x0001, 0xF203" = some [⟨1, 0, 0⟩, ⟨2, 1, 0⟩, ⟨2, 0xF203, 0⟩, ⟨3, 0, 0⟩] := by
  decide

/-! ## Witnesses: for each statement with hypotheses, a state and operands that meet them together -/

/-- What `nextOf` says of an outcome. -/
theorem eq_next_of_nextOf (o : Host.Outcome State Fault Refusal) (t : State) (h : nextOf o = some t) : o = .next t := by
  cases o <;> simp_all [nextOf]

theorem witness_DecodeOfEncodeIsTheInstruction :
    (Instr.wrw 9 0xFFFFFFFF).wellFormed = true ∧ (Instr.rdf .status).wellFormed = true ∧
    (Instr.wrf .idctr 0xFFFFFFFF).wellFormed = true := by decide
theorem witness_EncodeOfDecodeGivesTheCommandBack :
    (decode ⟨0x9A, 5, 6⟩ = .ok (.wrw 9 5) ∧ op 0x9A ∈ [0x2, 0x8, 0xA, 0xB, 0xC]) ∧
    (decode ⟨0xFFFFFF1B, 5, 6⟩ = .ok (.stamp true 0xFF 0xFFFF 5 6) ∧ op 0xFFFFFF1B = 0xB) := by decide
theorem witness_IllegalExactlyOnTheListedWords : Listed 0xA9 ∧ ¬ Listed 0x99 :=
  ⟨by decide, by decide⟩
theorem witness_IgnoredOperandsHaveNoEffect : op 0xD ∉ [0x2, 0x8, 0xA, 0xB, 0xC] ∧ op 0xC ≠ 0xB := by decide
theorem witness_EveryCommandHasExactlyOneFate :
    Listed 0xD ∧ (¬ Listed 0xD8 ∧ OperandTooWide ⟨0xD8, 0x10000, 0⟩) ∧
    (¬ Listed 0x0029400B ∧ OverCapacity ⟨0x0029400B, 0, 0⟩ (blk example1 0 0)) ∧
    (¬ Listed 0x0028400B ∧ ¬ OperandTooWide ⟨0x0028400B, 0, 0⟩ ∧ ¬ OverCapacity ⟨0x0028400B, 0, 0⟩ (blk example1 0 0)) :=
  ⟨by decide, ⟨by decide, by decide⟩, ⟨by decide, by decide⟩, by decide, by decide, by decide⟩
theorem witness_ErrorsChangeOnlyTheirStickyBit :
    ∃ s₁ s₂ s₃ : State, runCommand ⟨0xD, 0, 0⟩ (blk example1 0 0) = .next s₁ ∧ s₁.rsp = some ⟨0, .illegal⟩ ∧
      runCommand ⟨2, 0x10000, 0⟩ (blk example1 0 0) = .next s₂ ∧ s₂.rsp = some ⟨0, .range⟩ ∧
      runCommand ⟨0x0029400B, 0, 0⟩ (blk example1 0 0) = .next s₃ ∧ s₃.rsp = some ⟨0, .capacity⟩ :=
  ⟨afterIllegal (blk example1 0 0), afterRange (blk example1 0 0), afterCapacity (blk example1 0 0),
    eq_next_of_nextOf _ _ (by decide), rfl, eq_next_of_nextOf _ _ (by decide), rfl,
    eq_next_of_nextOf _ _ (by decide), rfl⟩

/-- A block with ILL set, whose host has one command to present. -/
def errored (e : HostEvent) : State :=
  { blk example1 0 0 with status := ⟨false, true, false, false⟩, rsp := some ⟨0, .illegal⟩, port := [e] }

theorem witness_OnlyResetClearsStickyBits :
    (errored (.command ⟨0, 0, 0⟩)).port.head? ≠ some .reset ∧
    (∃ t, step (errored (.command ⟨0, 0, 0⟩)) = .next t) ∧
    (errored (.command ⟨0, 0, 0⟩)).status.sticky .illegal = true :=
  ⟨by decide, ⟨{ errored (.command ⟨0, 0, 0⟩) with rsp := some ⟨0, .ok⟩, port := [] },
    eq_next_of_nextOf _ _ (by decide)⟩, by decide⟩
theorem witness_StepKeepsErrorsRecorded :
    ErrorRecorded (errored (.command ⟨0xF, 0, 0⟩)) ∧ ∃ t, step (errored (.command ⟨0xF, 0, 0⟩)) = .next t := by
  refine ⟨?_, ⟨errored (.command ⟨0xF, 0, 0⟩) |> fun s => { s with port := [] }, eq_next_of_nextOf _ _ (by decide)⟩⟩
  intro r e hr he
  cases hr
  cases he
  exact ⟨rfl, rfl⟩
/-- A clean block whose host presents a NOP and then a reserved opcode. -/
def cleanThenError : State :=
  { blk example1 0 0 with port := [.command ⟨0, 0, 0⟩, .command ⟨0xD, 0, 0⟩] }

/-- A run of one step is clean, the run of two has had an ILLEGAL, and neither list of host actions holds a reset. -/
theorem witness_CleanRunsAreThoseWithoutErrors :
    cleanThenError.clean ∧ HostEvent.reset ∉ cleanThenError.port ∧
    core.run 1 cleanThenError =
      .next ({ cleanThenError with rsp := some ⟨0, .ok⟩, port := [.command ⟨0xD, 0, 0⟩] } : State) ∧
    runResponses 1 cleanThenError = [⟨0, .ok⟩] ∧
    core.run 2 cleanThenError = .next (afterIllegal { cleanThenError with port := [] }) ∧
    runResponses 2 cleanThenError = [⟨0, .ok⟩, ⟨0, .illegal⟩] ∧
    ¬ (afterIllegal { cleanThenError with port := [] }).clean :=
  ⟨⟨rfl, rfl, rfl⟩, by decide, eq_next_of_nextOf _ _ (by decide), by decide, eq_next_of_nextOf _ _ (by decide),
    by decide, fun h => absurd h.1 (by decide)⟩
/-- One step of a clean block that ends with an error. -/
theorem witness_CleanRunsAreThoseWithoutErrors_step :
    (blk example1 0 0).clean ∧
    ∃ t, step { blk example1 0 0 with port := [.command ⟨0xD, 0, 0⟩] } = .next t ∧ t.rsp = some ⟨0, .illegal⟩ ∧
      t.status.ill = true :=
  ⟨⟨rfl, rfl, rfl⟩, afterIllegal (blk example1 0 0), eq_next_of_nextOf _ _ (by decide), rfl, rfl⟩
theorem witness_StepRunsTheDecodedCommand :
    (errored (.command ⟨0x59, 0, 0⟩)).port = .command ⟨0x59, 0, 0⟩ :: [] ∧ decode ⟨0x59, 0, 0⟩ = .ok (.rdw 5) := by
  decide
theorem witness_StepRunsTheDecodedCommand_illegal :
    (errored (.command ⟨0xE, 0, 0⟩)).port = .command ⟨0xE, 0, 0⟩ :: [] ∧ ∀ i, decode ⟨0xE, 0, 0⟩ ≠ .ok i := by
  refine ⟨rfl, fun i h => ?_⟩
  rw [show decode ⟨0xE, 0, 0⟩ = .error .reservedOpcode by decide] at h
  cases h
theorem witness_IdleStepChangesNoRegister : (blk example1 0 0).port = [] ∧ (errored .idle).port = .idle :: [] := by decide
theorem witness_StepTakesOneActionAndKeepsThePacketSize : ∃ t, step (errored .idle) = .next t :=
  ⟨{ errored .idle with rsp := none, port := [] }, eq_next_of_nextOf _ _ (by decide)⟩
theorem witness_ResetStepGivesResetValues : (errored .reset).port = .reset :: [] := by decide

/-- The unused-bit clause of each plain opcode, and of SUMADD's operand. -/
theorem witness_plain_opcodes :
    (∀ n ∈ [0x0, 0x1, 0x2, 0x3, 0x4, 0x5, 0x6, 0xC],
      op (BitVec.ofNat 32 (0x80000000 + n)) = n ∧ (BitVec.ofNat 32 (0x80000000 + n) : Data).extractLsb' 4 28 ≠ 0) ∧
    (0x10000 : Data).extractLsb' 16 16 ≠ 0 ∧ (0xFFFF : Data).extractLsb' 16 16 = 0 := by decide
theorem witness_ValidChecksTheHeader :
    exec .valid (blk example2 0 0) =
      .next { blk example2 0xFFFF 0 with status := ⟨true, false, false, false⟩, rsp := some ⟨1, .ok⟩ } ∧
    exec .valid (blk example1 0 0) = .next { blk example1 0x5748 0 with rsp := some ⟨0, .ok⟩ } :=
  ⟨eq_next_of_nextOf _ _ (by decide), eq_next_of_nextOf _ _ (by decide)⟩
theorem witness_RdfReadsWhatTheSelectorNames :
    selectors[14]? = some .status ∧ (op 0xF7 = 0x7 ∧ sel 0xF7 = 15) ∧
    (op 0x107 = 0x7 ∧ (0x107 : Data).extractLsb' 8 24 ≠ 0) := by decide
theorem witness_WrfWritesExactlyTheField :
    (selectors[3]? = some (.field .ecn) ∧ 2 ^ widths.getD 3 0 ≤ (4 : Data).toNat ∧ (3 : Data).toNat < 2 ^ widths.getD 3 0) ∧
    (selectors[12]? = some (.field .dst) ∧ (0xFFFFFFFF : Data).toNat < 2 ^ widths.getD 12 0) ∧
    (2 ^ 16 ≤ (0x10000 : Data).toNat ∧ (0xFFFF : Data).toNat < 2 ^ 16) ∧ selectors[13]? = some .idctr ∧
    (op 0xE8 = 0x8 ∧ sel 0xE8 = 14) ∧ (op 0xF8 = 0x8 ∧ sel 0xF8 = 15) := by decide
theorem witness_RdwReadsOneWord_and_WrwWritesOneWord :
    (9 : Fin 16).val < 10 ∧ 10 ≤ (10 : Fin 16).val ∧ (op 0xA9 = 0x9 ∧ 10 ≤ sel 0xA9) ∧ (op 0xFA = 0xA ∧ 10 ≤ sel 0xFA) := by
  decide
theorem witness_StampWritesThePerPacketFields :
    ((blk example1 0 0).packetSize.bytes - 20) / 8 * 8 < (41 : Word).toNat ∧
    (40 : Word).toNat ≤ ((blk example1 0 0).packetSize.bytes - 20) / 8 * 8 ∧
    op 0x2B = 0xB ∧ (0x2B : Data).extractLsb' 5 3 ≠ 0 := by decide
theorem witness_DsteqComparesTheDestination :
    (blk example2 0 0).hdr[8] ++ (blk example2 0 0).hdr[9] = 0xC0A800C7#32 ∧
    (blk example2 0 0).hdr[8] ++ (blk example2 0 0).hdr[9] ≠ 0xC0A800C6#32 := by decide
theorem witness_OcsumClosedForm : [1#16, 2#16].Perm [2#16, 1#16] := by decide

/-- ASSIGN and STAMP that succeed. -/
theorem witness_AssignedHeaderStaysValid :
    (∃ t, exec .assign (blk example1 0 0) = .next t ∧ t.rsp = some ⟨0xBAEB, .ok⟩) ∧
    ∃ t, exec (.stamp false 64 8 0xC0A80001 0xFFFFFFFF) (blk beforeStamp 0 0xFFFF) = .next t ∧
      t.rsp = some ⟨0xFFFFBA28, .ok⟩ :=
  ⟨⟨{ blk (example1.set 5 0xBAEB) 0x4514 0 with rsp := some ⟨0xBAEB, .ok⟩ }, eq_next_of_nextOf _ _ (by decide), rfl⟩,
    ⟨{ blk #v[0x4500, 0x001C, 0xFFFF, 0x0000, 0x4011, 0xBA28, 0xC0A8, 0x0001, 0xFFFF, 0xFFFF] 0x45D7 0 with
      rsp := some ⟨0xFFFFBA28, .ok⟩ }, eq_next_of_nextOf _ _ (by decide), rfl⟩⟩
theorem witness_SingleBitErrorsAreDetected : 15 < 16 ∧ ValidAnswers (blk example2 0 0) 1 :=
  ⟨by decide, _, witness_ValidChecksTheHeader.1, rfl⟩
theorem witness_TheTwoZeros :
    ((0 : Word) = 0 ∧ (0xFFFF : Word) = 0xFFFF) ∧ (blk example2 0 0).hdr[2] = 0 ∧ (blk example2 0 0).hdr[0] ≠ 0 ∧
    ((blk example2 0 0).hdr.set 2 0xFFFF)[0] ≠ 0 ∧
    ValidAnswers { blk (#v[0xFFFF, 0, 0, 0, 0, 0, 0, 0, 0, 0]) 0 0 with
      hdr := (blk (#v[0xFFFF, 0, 0, 0, 0, 0, 0, 0, 0, 0]) 0 0).hdr.set 5 0 } 1 :=
  ⟨by decide, by decide, by decide, by decide,
    { blk (#v[0xFFFF, 0, 0, 0, 0, 0, 0, 0, 0, 0]) 0xFFFF 0 with
      status := ⟨true, false, false, false⟩, rsp := some ⟨1, .ok⟩ }, eq_next_of_nextOf _ _ (by decide), rfl⟩
theorem witness_AllZeroHeaderNeverValidates :
    ∀ j : Fin 10, (blk (Vector.replicate 10 0) 0 0).hdr[j.val] = 0 := by decide
theorem witness_StreamSumRestartsFromSavedRawSum :
    exec .sumrd (blk example1 0xF204 0) = .next { blk example1 0xF204 0 with rsp := some ⟨0xF2040DFB, .ok⟩ } :=
  eq_next_of_nextOf _ _ (by decide)

/-- A field write that succeeds (FieldWriteKeepsOtherFields, FieldAndWordViewsAgree, NoImplicitChecksumUpdate). -/
theorem witness_field_write :
    ∃ t, exec (.wrf (.field .dscp) 0x2E) (blk example1 0 0) = .next t ∧ t.rsp = some ⟨0, .ok⟩ ∧ Field.ecn ≠ Field.dscp :=
  ⟨{ blk (example1.set 0 0x45B8) 0 0 with rsp := some ⟨0, .ok⟩ }, eq_next_of_nextOf _ _ (by decide), rfl, by decide⟩
/-- A word write that succeeds (FieldAndWordViewsAgree, NoImplicitChecksumUpdate). -/
theorem witness_word_write :
    ∃ t, exec (.wrw 9 0xFFFF) (blk example1 0 0) = .next t ∧ t.rsp = some ⟨0, .ok⟩ ∧ (9 : Fin 16).val < 10 ∧
      writesAcc (.wrw 9 0xFFFF) = false ∧ writesIdctr (.wrw 9 0xFFFF) = false :=
  ⟨{ blk (example1.set 9 0xFFFF) 0 0 with rsp := some ⟨0, .ok⟩ }, eq_next_of_nextOf _ _ (by decide), rfl, by decide,
    by decide, by decide⟩
/-- The frames over all instructions: one that writes no header, one STAMP that fails. -/
theorem witness_frames :
    (∃ t, exec .nop (blk example1 0 0) = .next t ∧ writesHeader .nop = false ∧ t.rsp = some ⟨0, .ok⟩) ∧
    ∃ t, exec (.stamp true 1 41 0 0) (blk example1 0 0) = .next t ∧ ∀ d, t.rsp ≠ some ⟨d, .ok⟩ :=
  ⟨⟨{ blk example1 0 0 with rsp := some ⟨0, .ok⟩ }, eq_next_of_nextOf _ _ (by decide), by decide, rfl⟩,
    ⟨afterCapacity (blk example1 0 0), eq_next_of_nextOf _ _ (by decide), by simp [afterCapacity]⟩⟩
theorem witness_ReadsHaveNoSideEffects :
    onlyReads (.rdw 9) = true ∧ (Instr.rdw 9).wellFormed = true ∧
    exec (.rdw 9) (blk example2 0 0) = .next { blk example2 0 0 with rsp := some ⟨0xC7, .ok⟩ } ∧
    exec .hcsum (blk example2 0 0) = .next { blk example2 0xFFFF 0 with rsp := some ⟨0, .ok⟩ } :=
  ⟨by decide, by decide, eq_next_of_nextOf _ _ (by decide), eq_next_of_nextOf _ _ (by decide)⟩
theorem witness_StampKeepsTheOtherFields : ∃ t, exec (.stamp false 64 8 0xC0A80001 0xFFFFFFFF) (blk beforeStamp 0 0xFFFF) =
    .next t := by
  obtain ⟨t, h, _⟩ := witness_AssignedHeaderStaysValid.2
  exact ⟨t, h⟩
/-- L1-4, with a failed STAMP between. -/
theorem witness_IdentificationSequence :
    (∀ v, Instr.wrf .idctr v ∉ [Instr.stamp false 1 0 0 0, .stamp false 1 41 0 0, .stamp true 1 40 0 0, .stamp false 1 0 0 0]) ∧
    stampIds [.stamp false 1 0 0 0, .stamp false 1 41 0 0, .stamp true 1 40 0 0, .stamp false 1 0 0 0]
      (blk example1 0 0xFFFE) = [0xFFFE, 0xFFFF, 0x0000] := ⟨by simp, by decide⟩

/-- The clocked block: an edge that accepts, one at which the block is busy, one with `rst` high. -/
theorem witness_clocked :
    (Clocked.mk (blk example1 0 0) none).accepts ⟨false, true, 5, 0, 0⟩ = true ∧
    [(⟨false, false, 0, 0, 0⟩ : Pins)].length < (⟨2, by decide⟩ : Latency).cycles ∧
    (Clocked.mk (blk example1 0 0) (some ⟨⟨5, 0, 0⟩, 1⟩)).inFlight.isSome = true ∧
    (⟨true, true, 5, 0, 0⟩ : Pins).rst = true ∧ (⟨false, false, 0, 0, 0⟩ : Pins).cmdValid = false := by decide
/-- R230: right after a command completed, `rsp_valid` is low at an edge with `rst` high, and high at one with `rst` low. -/
theorem test_rsp_valid_at_reset_edge :
    (Clocked.mk (errored .idle) none).rspValid true = false ∧ (Clocked.mk (errored .idle) none).rspValid false = true := by
  decide
/-- `hdr_out` changes at the edge that completes an ASSIGN. -/
theorem witness_HdrOutChangesOnlyAtCompletion :
    (match Clocked.edge ⟨2, by decide⟩ ⟨false, false, 0, 0, 0⟩ ⟨blk example1 0 0, some ⟨⟨5, 0, 0⟩, 0⟩⟩ with
      | .next b => decide (b.block.hdrOut ≠ (blk example1 0 0).hdrOut)
      | _ => false) = true := by decide
theorem witness_AssemblerAgreesWithTheEncoder :
    selectors[0]? = some (.field .ver) ∧ 15 < 16 ∧ 255 < 256 ∧ 1 < 2 ∧ 65535 < 65536 := by decide

end Sys2Proof.Tests
end

section
/-! The host's list and PACKET_SIZE over one step (00_scope.md R5, 20_memory.md R60). -/

namespace Sys2Proof.Machine

/-- No action of the host, once taken, touches the rest of the list or PACKET_SIZE: reset too gives back both. -/
theorem runEvent_frame (e : HostEvent) (s t : State) (h : runEvent e s = .next t) :
    t.port = s.port ∧ t.packetSize = s.packetSize := by
  cases e with
  | idle => cases h; exact ⟨clearResponse_port s, clearResponse_packetSize s⟩
  | command c =>
    obtain ⟨hsize, hport, -⟩ := runCommand_frame c s t h
    exact ⟨hport, hsize⟩
  | reset => cases h; exact ⟨applyReset_port s, applyReset_packetSize s⟩

/-- Settles O15: by cases on the host's list, a step being `runEvent` of its head in the state that holds its tail. -/
theorem stepTakesOneActionAndKeepsThePacketSize : Obligations.StepTakesOneActionAndKeepsThePacketSize := by
  intro s t h
  cases hp : s.port with
  | nil =>
    rw [step_nil s hp] at h
    cases h
    exact ⟨hp, rfl⟩
  | cons e rest =>
    rw [step_cons s e rest hp] at h
    exact runEvent_frame e { s with port := rest } t h

end Sys2Proof.Machine
end

section
/-! What an instruction that ends with code OK leaves in the registers, said once for all instructions, and the frames of
the registers (10_state.md R25 to R29) that follow from it. -/

namespace Sys2Proof.Machine

open Sys2Proof.Claims

/-- The state an instruction that ends with code OK leaves, apart from its response. -/
def stateAfter (i : Instr) (s : State) : State :=
  match i with
  | .nop | .sumrd | .rdf _ | .rdw _ | .dsteq _ => s
  | .sumclr => { s with acc := 0 }
  | .sumadd opa => { s with acc := ocadd s.acc (lowWord opa) }
  | .hcsum => { s with acc := headerSum s.hdr }
  | .assign => { s with hdr := (assignChecksum s.hdr).1, acc := (assignChecksum s.hdr).2 }
  | .valid => { s with acc := headerSum s.hdr, status := s.status.setV (headerSum s.hdr == 0xFFFF#16) }
  | .wrf sel opa => writeSelector sel opa s
  | .wrw idx opa => if h : idx.val < 10 then { s with hdr := s.hdr.set idx.val (lowWord opa) } else s
  | .stamp mf ttl dsz src dst =>
    let r := assignChecksum (stampFields mf ttl dsz src dst s.idctr s.hdr)
    { s with hdr := r.1, acc := r.2, idctr := s.idctr + 1 }

/-- The inversion of `exec` with its effect: an error, or a response with code OK over `stateAfter`. -/
theorem exec_eq_raiseError_or_respond (i : Instr) (s t : State) (h : exec i s = .next t) :
    (∃ e, t = raiseError e s) ∨ ∃ d, t = respond d (stateAfter i s) := by
  cases i with
  | nop | sumclr | sumrd | hcsum | assign | valid | rdf | dsteq => cases h; exact .inr ⟨_, rfl⟩
  | sumadd opa =>
    cases h
    split
    · exact .inr ⟨_, rfl⟩
    · exact .inl ⟨_, rfl⟩
  | wrf sel opa =>
    cases h
    split
    · split
      · exact .inr ⟨_, rfl⟩
      · exact .inl ⟨_, rfl⟩
    · exact .inl ⟨_, rfl⟩
  | rdw idx =>
    cases h
    split
    · exact .inr ⟨_, rfl⟩
    · exact .inl ⟨_, rfl⟩
  | wrw idx opa =>
    cases h
    split
    next hidx =>
      split
      · exact .inr ⟨0, by simp only [stateAfter, dif_pos hidx]⟩
      · exact .inl ⟨_, rfl⟩
    · exact .inl ⟨_, rfl⟩
  | stamp mf ttl dsz src dst =>
    cases h
    split
    · exact .inl ⟨_, rfl⟩
    · exact .inr ⟨_, rfl⟩

/-- An error's response does not have code OK. -/
theorem raiseError_rsp_ne_ok (e : ErrorCode) (s : State) (d : Data) : (raiseError e s).rsp ≠ some ⟨d, .ok⟩ := by
  simp

/-- An instruction whose response has code OK. -/
theorem exec_eq_respond_of_ok (i : Instr) (s t : State) (d : Data) (h : exec i s = .next t)
    (hok : t.rsp = some ⟨d, .ok⟩) : t = respond d (stateAfter i s) := by
  obtain ⟨e, rfl⟩ | ⟨d', rfl⟩ := exec_eq_raiseError_or_respond i s t h
  · exact absurd hok (raiseError_rsp_ne_ok e s d)
  · cases hok; rfl

/-- An instruction whose response does not have code OK. -/
theorem exec_eq_raiseError_of_not_ok (i : Instr) (s t : State) (h : exec i s = .next t)
    (hno : ∀ d, t.rsp ≠ some ⟨d, .ok⟩) : ∃ e, t = raiseError e s := by
  obtain he | ⟨d, rfl⟩ := exec_eq_raiseError_or_respond i s t h
  · exact he
  · exact absurd rfl (hno d)

/-! ## One frame of `stateAfter` per register -/

theorem stateAfter_hdr_of_not_writesHeader (i : Instr) (s : State) (hw : writesHeader i = false) :
    (stateAfter i s).hdr = s.hdr := by
  cases i with
  | nop | sumclr | sumadd | sumrd | hcsum | valid | rdf | rdw | dsteq => rfl
  | wrf sel opa =>
    cases sel with
    | field f => cases hw
    | idctr | status => rfl
  | assign | wrw | stamp => cases hw

theorem stateAfter_acc_of_not_writesAcc (i : Instr) (s : State) (hw : writesAcc i = false) :
    (stateAfter i s).acc = s.acc := by
  cases i with
  | nop | sumrd | rdf | rdw | dsteq => rfl
  | wrf sel opa => exact writeSelector_acc sel opa s
  | wrw idx opa => simp only [stateAfter]; split <;> rfl
  | sumclr | sumadd | hcsum | assign | valid | stamp => cases hw

theorem stateAfter_idctr_of_not_writesIdctr (i : Instr) (s : State) (hw : writesIdctr i = false) :
    (stateAfter i s).idctr = s.idctr := by
  cases i with
  | nop | sumclr | sumadd | sumrd | hcsum | assign | valid | rdf | rdw | dsteq => rfl
  | wrf sel opa =>
    cases sel with
    | field | status => rfl
    | idctr => cases hw
  | wrw idx opa => simp only [stateAfter]; split <;> rfl
  | stamp => cases hw

theorem stateAfter_status_of_ne_valid (i : Instr) (s : State) (hv : i ≠ .valid) :
    (stateAfter i s).status = s.status := by
  cases i with
  | nop | sumclr | sumadd | sumrd | hcsum | assign | rdf | rdw | stamp | dsteq => rfl
  | wrf sel opa => exact writeSelector_status sel opa s
  | wrw idx opa => simp only [stateAfter]; split <;> rfl
  | valid => exact absurd rfl hv

/-! ## The registers' writers -/

/-- ASSIGN stores no word but word 5 (10_state.md R25). -/
theorem assignChecksum_getElem_of_ne (h : Header) (j : Nat) (hj : j < 10) (hne : j ≠ 5) :
    (assignChecksum h).1[j] = h[j] := by
  rw [assignChecksum_eq]
  exact Vector.getElem_set_ne (by decide) hj hne.symm

/-- Settles O43: an error keeps the header, and so does `stateAfter` of an instruction that is none of its writers. -/
theorem onlyHeaderWritersChangeTheHeader : Obligations.OnlyHeaderWritersChangeTheHeader := by
  intro i s t h
  obtain ⟨e, rfl⟩ | ⟨d, rfl⟩ := exec_eq_raiseError_or_respond i s t h
  · exact ⟨fun _ => rfl, fun _ _ _ => rfl⟩
  · refine ⟨stateAfter_hdr_of_not_writesHeader i s, ?_⟩
    rintro rfl j hj
    exact assignChecksum_getElem_of_ne s.hdr j.val j.isLt hj

/-- Settles O44: an error keeps ACC, and so does `stateAfter` of an instruction that is none of its writers. -/
theorem onlyAccWritersChangeAcc : Obligations.OnlyAccWritersChangeAcc := by
  intro i s t h
  constructor
  · intro hw
    obtain ⟨e, rfl⟩ | ⟨d, rfl⟩ := exec_eq_raiseError_or_respond i s t h
    · rfl
    · exact stateAfter_acc_of_not_writesAcc i s hw
  · intro _ hno
    obtain ⟨e, rfl⟩ := exec_eq_raiseError_of_not_ok i s t h hno
    rfl

/-- Replacing all 16 bits of a word leaves the new word. -/
theorem insertBits_zero_sixteen (w v : Word) : insertBits w 0 16 v = v := by
  apply BitVec.eq_of_getLsbD_eq
  intro j hj
  rw [getLsbD_insertBits _ _ _ _ _ hj, if_pos (by omega), Nat.sub_zero]

/-- The identification field is word 2 (10_state.md R21): writing it sets that word whole. -/
theorem setField_id (h : Header) (v : Data) : setField h .id v = h.set 2 (lowWord v) :=
  congrArg (h.set 2) (insertBits_zero_sixteen h[2] (lowWord v))

/-- STAMP's field writes leave the identification counter in word 2 (42_container.md R171). -/
theorem stampFields_getElem_two (mf : Bool) (ttl : Byte) (dsz : Word) (src dst : Data) (idctr : Word) (h : Header) :
    (stampFields mf ttl dsz src dst idctr h)[2] = idctr := by
  simp only [stampFields, setMoreFragments, setField_id, lowWord_zextWord]
  rw [Vector.getElem_set_ne _ _ (by decide), Vector.getElem_set_self]

/-- A STAMP that ends with code OK copies IDCTR into ID and steps it (10_state.md R27). -/
theorem stateAfter_stamp_id (mf : Bool) (ttl : Byte) (dsz : Word) (src dst : Data) (s : State) :
    (stateAfter (.stamp mf ttl dsz src dst) s).hdr[2] = s.idctr ∧
      (stateAfter (.stamp mf ttl dsz src dst) s).idctr.toNat = (s.idctr.toNat + 1) % 2 ^ 16 :=
  ⟨(assignChecksum_getElem_of_ne _ 2 (by decide) (by decide)).trans (stampFields_getElem_two ..),
    BitVec.toNat_add s.idctr 1⟩

/-- Settles O45: an error keeps IDCTR, and so does `stateAfter` of an instruction that is none of its writers; what a
successful STAMP does to it is `stateAfter_stamp_id`. -/
theorem onlyIdctrWritersChangeIdctr : Obligations.OnlyIdctrWritersChangeIdctr := by
  intro i s t h
  refine ⟨?_, ?_, ?_⟩
  · intro hw
    obtain ⟨e, rfl⟩ | ⟨d, rfl⟩ := exec_eq_raiseError_or_respond i s t h
    · rfl
    · exact stateAfter_idctr_of_not_writesIdctr i s hw
  · rintro hstamp ⟨d, hok⟩
    obtain rfl := exec_eq_respond_of_ok i s t d h hok
    cases i with
    | stamp mf ttl dsz src dst => exact stateAfter_stamp_id mf ttl dsz src dst s
    | _ => cases hstamp
  · intro _ hno
    obtain ⟨e, rfl⟩ := exec_eq_raiseError_of_not_ok i s t h hno
    rfl

/-- Settles O46: an error keeps V, an instruction other than VALID that ends with code OK keeps STATUS, and VALID, which
never ends with an error, sets V alone. -/
theorem onlyValidAndErrorsChangeStatus : Obligations.OnlyValidAndErrorsChangeStatus := by
  intro i s t h
  refine ⟨?_, ?_, ?_⟩
  · intro hv
    obtain ⟨e, rfl⟩ | ⟨d, rfl⟩ := exec_eq_raiseError_or_respond i s t h
    · exact status_record_v e s.status
    · exact congrArg Status.v (stateAfter_status_of_ne_valid i s hv)
  · rintro hv ⟨d, hok⟩
    obtain rfl := exec_eq_respond_of_ok i s t d h hok
    exact stateAfter_status_of_ne_valid i s hv
  · rintro rfl
    cases h
    exact ⟨rfl, rfl, rfl⟩

/-! ## The sticky bits over one step -/

/-- A whole command clears no sticky bit, whether it ends with an error or with code OK. -/
theorem runCommand_keeps_sticky (c : Command) (s t : State) (e : ErrorCode) (h : runCommand c s = .next t)
    (hs : s.status.sticky e = true) : t.status.sticky e = true := by
  obtain ⟨u, hu, hcases⟩ := runCommand_cases c s
  obtain rfl : u = t := Host.Outcome.next.inj (hu.symm.trans h)
  obtain ⟨e', rfl⟩ | ⟨_, _, hkeep⟩ := hcases
  · exact status_sticky_record_of_sticky e' e s.status hs
  · rw [hkeep e]; exact hs

/-- No action of the host but reset clears a sticky bit (10_state.md R28). -/
theorem runEvent_keeps_sticky (ev : HostEvent) (s t : State) (e : ErrorCode) (hev : ev ≠ .reset)
    (h : runEvent ev s = .next t) (hs : s.status.sticky e = true) : t.status.sticky e = true := by
  cases ev with
  | idle => cases h; exact hs
  | command c => exact runCommand_keeps_sticky c s t e h hs
  | reset => exact absurd rfl hev

/-- Settles O9: by cases on the host's list, a step being `runEvent` of its head. -/
theorem onlyResetClearsStickyBits : Obligations.OnlyResetClearsStickyBits := by
  intro s t e hhead h hs
  cases hp : s.port with
  | nil =>
    rw [step_nil s hp] at h
    cases h
    exact hs
  | cons ev rest =>
    rw [step_cons s ev rest hp] at h
    have hev : ev ≠ .reset := by
      rintro rfl
      exact hhead (by rw [hp]; rfl)
    exact runEvent_keeps_sticky ev _ t e hev h hs

end Sys2Proof.Machine
end

section
/-! The header fields: their places are apart and inside their words, so a field write is read back and touches no other
field (10_state.md R21, R25); and the word, byte and 160-bit views (R20; 20_memory.md R51). -/

namespace Sys2Proof.Machine

open Sys2Proof.Claims

/-! ## Places -/

/-- The bits of a place lie inside their words of 16 bits, and no word is named twice. -/
def Place.fits : Place → Prop
  | .part _ lo width => lo + width ≤ 16
  | .pair hi lo => hi ≠ lo

/-- Bit `b` of word `j` is a bit of the place. -/
def Place.covers : Place → Fin 10 → Nat → Prop
  | .part i lo width, j, b => j = i ∧ lo ≤ b ∧ b < lo + width
  | .pair hi lo, j, _ => j = hi ∨ j = lo

/-- The number of bits of a place. -/
def Place.width : Place → Nat
  | .part _ _ width => width
  | .pair _ _ => 32

theorem fieldPlace_fits (f : Field) : (fieldPlace f).fits := by
  cases f <;> simp [fieldPlace, Place.fits]

/-- The field that bit `b` of word `j` belongs to: R21's table, read from the bits. -/
def fieldAt (j : Fin 10) (b : Nat) : Field :=
  match j with
  | 0 => if 12 ≤ b then .ver else if 8 ≤ b then .hlen else if 2 ≤ b then .dscp else .ecn
  | 1 => .tlen
  | 2 => .id
  | 3 => if 13 ≤ b then .flags else .frag
  | 4 => if 8 ≤ b then .ttl else .proto
  | 5 => .csum
  | 6 | 7 => .src
  | 8 | 9 => .dst

/-- A bit belongs to no field but one, so no two fields share a bit. -/
theorem eq_fieldAt_of_covers (f : Field) (j : Fin 10) (b : Nat) (h : (fieldPlace f).covers j b) : f = fieldAt j b := by
  cases f with
  | ver | hlen | dscp | ecn | flags | frag | ttl | proto =>
    obtain ⟨rfl, hlo, hhi⟩ := h
    simp (disch := omega) only [fieldAt, if_pos, if_neg]
  | tlen | id | csum => obtain ⟨rfl, -, -⟩ := h; rfl
  | src | dst => obtain rfl | rfl := h <;> rfl

theorem selectorWidth_field (f : Field) : selectorWidth (.field f) = (fieldPlace f).width := by
  cases f <;> rfl

/-! ## Reading and writing by the kind of place -/

section
variable {f : Field} (h : Header) (v : Data)

theorem getField_of_part {i : Fin 10} {lo width : Nat} (hp : fieldPlace f = .part i lo width) :
    getField h f = readBits h[i] lo width := by
  simp only [getField, hp]

theorem getField_of_pair {hi lo : Fin 10} (hp : fieldPlace f = .pair hi lo) : getField h f = h[hi] ++ h[lo] := by
  simp only [getField, hp]

theorem setField_of_part {i : Fin 10} {lo width : Nat} (hp : fieldPlace f = .part i lo width) :
    setField h f v = h.set i (insertBits h[i] lo width (lowWord v)) := by
  simp only [setField, hp]

theorem setField_of_pair {hi lo : Fin 10} (hp : fieldPlace f = .pair hi lo) :
    setField h f v = (h.set hi (highWord v)).set lo (lowWord v) := by
  simp only [setField, hp]

end

/-- The two words of a value, the high one first, are the value. -/
theorem highWord_append_lowWord (v : Data) : highWord v ++ lowWord v = v :=
  BitVec.extractLsb'_append_extractLsb' (w := 16) (len := 16)

/-- A value that fits a field of a word is the low bits of its low word. -/
theorem readBits_lowWord_of_lt (v : Data) (width : Nat) (hw : width ≤ 16) (hv : v.toNat < 2 ^ width) :
    readBits (lowWord v) 0 width = v := by
  apply BitVec.eq_of_toNat_eq
  have h16 : 2 ^ width ≤ 2 ^ 16 := Nat.pow_le_pow_right (by decide) hw
  simp only [readBits, lowWord, BitVec.toNat_setWidth, BitVec.extractLsb'_toNat, Nat.shiftRight_zero]
  rw [Nat.mod_eq_of_lt (a := v.toNat) (by omega), Nat.mod_eq_of_lt hv, Nat.mod_eq_of_lt (by omega)]

/-- A field reads back as the value written, if the value fits (41_header_access.md R141). -/
theorem getField_setField_self (h : Header) (f : Field) (v : Data) (hv : fitsSelector (.field f) v = true) :
    getField (setField h f v) f = v := by
  have hfits := fieldPlace_fits f
  rw [fitsSelector, decide_eq_true_iff, selectorWidth_field] at hv
  cases hp : fieldPlace f with
  | part i lo width =>
    rw [hp] at hfits hv
    have hw : lo + width ≤ 16 := hfits
    rw [getField_of_part _ hp, setField_of_part _ _ hp, Fin.getElem_fin, Vector.getElem_set_self,
      readBits_insertBits_self _ _ _ _ hw, readBits_lowWord_of_lt v width (by omega) hv]
  | pair hi lo =>
    rw [hp] at hfits
    have hne : lo.val ≠ hi.val := fun he => hfits (Fin.ext he.symm)
    rw [getField_of_pair _ hp, setField_of_pair _ _ hp, Fin.getElem_fin, Fin.getElem_fin, Vector.getElem_set_self,
      Vector.getElem_set_ne _ _ hne, Vector.getElem_set_self, highWord_append_lowWord]

/-- A field write leaves every bit outside the field's place ("writes those bits and no others", 00_scope.md R7). -/
theorem getLsbD_setField_of_not_covers (h : Header) (f : Field) (v : Data) (j : Fin 10) (b : Nat) (hb : b < 16)
    (hn : ¬ (fieldPlace f).covers j b) : (setField h f v)[j].getLsbD b = h[j].getLsbD b := by
  cases hp : fieldPlace f with
  | part i lo width =>
    rw [hp] at hn
    rw [setField_of_part _ _ hp]
    by_cases hij : j = i
    · subst hij
      rw [Fin.getElem_fin, Vector.getElem_set_self, getLsbD_insertBits _ _ _ _ _ hb, if_neg fun hin => hn ⟨rfl, hin⟩]
    · exact congrArg (BitVec.getLsbD · b) (Vector.getElem_set_ne i.isLt j.isLt (Fin.val_ne_of_ne (Ne.symm hij)))
  | pair hi lo =>
    rw [hp] at hn
    obtain ⟨hhi, hlo⟩ := not_or.mp hn
    rw [setField_of_pair _ _ hp, Fin.getElem_fin, Fin.getElem_fin,
      Vector.getElem_set_ne _ _ (Fin.val_ne_of_ne (Ne.symm hlo)),
      Vector.getElem_set_ne _ _ (Fin.val_ne_of_ne (Ne.symm hhi))]

/-- A field's value depends on the bits of its place alone. -/
theorem getField_congr (h h' : Header) (f : Field)
    (heq : ∀ (j : Fin 10) (b : Nat), b < 16 → (fieldPlace f).covers j b → h[j].getLsbD b = h'[j].getLsbD b) :
    getField h f = getField h' f := by
  have hfits := fieldPlace_fits f
  cases hp : fieldPlace f with
  | part i lo width =>
    rw [hp] at hfits heq
    have hw : lo + width ≤ 16 := hfits
    rw [getField_of_part _ hp, getField_of_part _ hp]
    apply BitVec.eq_of_getLsbD_eq
    intro b _
    rw [getLsbD_readBits, getLsbD_readBits]
    by_cases hb : b < width
    · rw [heq i (lo + b) (by omega) ⟨rfl, by omega, by omega⟩]
    · simp [hb]
  | pair hi lo =>
    rw [hp] at heq
    have hhi : h[hi] = h'[hi] := BitVec.eq_of_getLsbD_eq fun b hb => heq hi b hb (.inl rfl)
    have hlo : h[lo] = h'[lo] := BitVec.eq_of_getLsbD_eq fun b hb => heq lo b hb (.inr rfl)
    rw [getField_of_pair _ hp, getField_of_pair _ hp, hhi, hlo]

/-- A field reads as before after another field is written (10_state.md R25). -/
theorem getField_setField_of_ne (h : Header) (f g : Field) (v : Data) (hne : g ≠ f) :
    getField (setField h f v) g = getField h g := by
  apply getField_congr
  intro j b hb hg
  apply getLsbD_setField_of_not_covers _ _ _ _ _ hb
  intro hf
  exact hne ((eq_fieldAt_of_covers g j b hg).trans (eq_fieldAt_of_covers f j b hf).symm)

/-- A WRF that ends with code OK has an operand that fits (30_encoding.md R78). -/
theorem fitsSelector_of_wrf_ok (sel : Selector) (v d : Data) (s t : State) (h : exec (.wrf sel v) s = .next t)
    (hok : t.rsp = some ⟨d, .ok⟩) : fitsSelector sel v = true := by
  by_contra hfit
  simp only [exec, execWrf, if_neg hfit] at h
  cases h
  split at hok <;> exact raiseError_rsp_ne_ok _ _ _ hok

/-- Settles O41: such a WRF leaves `setField` of a value that fits, which is read back and leaves every other field. -/
theorem fieldWriteKeepsOtherFields : Obligations.FieldWriteKeepsOtherFields := by
  intro s t f v d h hok
  have hfit := fitsSelector_of_wrf_ok (.field f) v d s t h hok
  obtain rfl := exec_eq_respond_of_ok _ s t d h hok
  exact ⟨getField_setField_self s.hdr f v hfit, fun g hne => getField_setField_of_ne s.hdr f g v hne⟩

/-! ## Words, bytes and `hdr_out` -/

/-- Bits of bits of a value. -/
theorem extractLsb'_extractLsb'_of_add_le {n : Nat} (x : BitVec n) (lo width lo' width' : Nat)
    (hle : lo' + width' ≤ width) :
    (x.extractLsb' lo width).extractLsb' lo' width' = x.extractLsb' (lo + lo') width' := by
  apply BitVec.eq_of_getLsbD_eq
  intro b hb
  simp only [BitVec.getLsbD_extractLsb', hb, decide_true, Bool.true_and]
  rw [decide_eq_true (by omega), Bool.true_and, Nat.add_assoc]

/-- The even byte of a pair is the word's high byte. -/
theorem headerByte_even (h : Header) (i : Nat) (hi : i < 10) :
    headerByte h ⟨2 * i, by omega⟩ = h[i].extractLsb' 8 8 := by
  simp [headerByte]

/-- The odd byte of a pair is the word's low byte. -/
theorem headerByte_odd (h : Header) (i : Nat) (hi : i < 10) :
    headerByte h ⟨2 * i + 1, by omega⟩ = h[i].extractLsb' 0 8 := by
  have hdiv : (2 * i + 1) / 2 = i := by omega
  simp [headerByte, hdiv, Nat.add_mod]

/-- A word is its two bytes, the lower-numbered one most significant (10_state.md R20). -/
theorem word_eq_append_headerByte (h : Header) (i : Nat) (hi : i < 10) :
    h[i] = headerByte h ⟨2 * i, by omega⟩ ++ headerByte h ⟨2 * i + 1, by omega⟩ := by
  rw [headerByte_even h i hi, headerByte_odd h i hi]
  exact (BitVec.extractLsb'_append_extractLsb' (w := 8) (len := 8)).symm

/-- Word `i` stands in bits `159 - 16 i` down to `144 - 16 i` of the 160-bit view. -/
theorem headerBits_extractLsb'_word (h : Header) (i : Nat) (hi : i < 10) :
    (headerBits h).extractLsb' (144 - 16 * i) 16 = h[i] := by
  interval_cases i
  all_goals
    simp (disch := decide) only [headerBits, BitVec.extractLsb'_append_eq_of_le,
      BitVec.extractLsb'_append_eq_of_add_le]
    exact BitVec.extractLsb'_eq_self

/-- Settles O40: a byte is a slice of its word, which is a slice of `hdr_out`. -/
theorem wordsBytesAndHdrOutAgree : Obligations.WordsBytesAndHdrOutAgree := by
  intro s
  refine ⟨word_eq_append_headerByte s.hdr, ?_⟩
  rintro ⟨j, hj⟩
  obtain ⟨i, rfl | rfl⟩ := Nat.even_or_odd' j
  · have hi : i < 10 := by omega
    have hpos : 152 - 8 * (2 * i) = 144 - 16 * i + 8 := by omega
    rw [headerByte_even s.hdr i hi, ← headerBits_extractLsb'_word s.hdr i hi,
      extractLsb'_extractLsb'_of_add_le _ _ _ _ _ (by decide), hpos, State.hdrOut]
  · have hi : i < 10 := by omega
    have hpos : 152 - 8 * (2 * i + 1) = 144 - 16 * i + 0 := by omega
    rw [headerByte_odd s.hdr i hi, ← headerBits_extractLsb'_word s.hdr i hi,
      extractLsb'_extractLsb'_of_add_le _ _ _ _ _ (by decide), hpos, State.hdrOut]

/-! ## R21's two columns -/

/-- The fields stand at the bits of words that R21's fourth column gives. -/
theorem getField_eq_fieldValue (h : Header) (f : Field) : getField h f = fieldValue h f := by
  cases f with
  | ver | hlen | dscp | ecn | flags | frag | ttl | proto | src | dst => rfl
  | tlen => exact congrArg (BitVec.setWidth 32) (BitVec.extractLsb'_eq_self (x := h[1]))
  | id => exact congrArg (BitVec.setWidth 32) (BitVec.extractLsb'_eq_self (x := h[2]))
  | csum => exact congrArg (BitVec.setWidth 32) (BitVec.extractLsb'_eq_self (x := h[5]))

section
variable (h : Header) (i : Nat) (hi : i < 10) (lo width : Nat) (hle : lo + width ≤ 8)
include hle

/-- Bits of a word's high half are bits of its even byte. -/
theorem extractLsb'_high_eq_byte :
    h[i].extractLsb' (8 + lo) width = (headerByte h ⟨2 * i, by omega⟩).extractLsb' lo width := by
  rw [headerByte_even h i hi, extractLsb'_extractLsb'_of_add_le _ _ _ _ _ hle]

/-- Bits of a word's low half are bits of its odd byte. -/
theorem extractLsb'_low_eq_byte :
    h[i].extractLsb' lo width = (headerByte h ⟨2 * i + 1, by omega⟩).extractLsb' lo width := by
  rw [headerByte_odd h i hi, extractLsb'_extractLsb'_of_add_le _ _ _ _ _ hle, Nat.zero_add]

end

/-- The low 13 bits of a word are the low 5 bits of its high byte and its low byte. -/
theorem extractLsb'_thirteen_eq_append_headerByte (h : Header) (i : Nat) (hi : i < 10) :
    h[i].extractLsb' 0 13 =
      (headerByte h ⟨2 * i, by omega⟩).extractLsb' 0 5 ++ headerByte h ⟨2 * i + 1, by omega⟩ := by
  rw [← extractLsb'_high_eq_byte h i hi 0 5 (by decide), headerByte_odd h i hi]
  exact (BitVec.extractLsb'_append_extractLsb'_eq_extractLsb' (start₁ := 0) (len₁ := 8) rfl).symm

/-- Two words are their four bytes in order. -/
theorem append_eq_append_headerByte (h : Header) (i : Nat) (hi : i + 1 < 10) :
    h[i] ++ h[i + 1] = headerByte h ⟨2 * i, by omega⟩ ++ headerByte h ⟨2 * i + 1, by omega⟩ ++
      headerByte h ⟨2 * (i + 1), by omega⟩ ++ headerByte h ⟨2 * (i + 1) + 1, by omega⟩ := by
  rw [← word_eq_append_headerByte h i (by omega), BitVec.append_assoc, ← word_eq_append_headerByte h (i + 1) hi]
  rfl

/-- Settles O39: R21's column of words, and each slice of bytes from the bytes of its word. -/
theorem fieldPositions : Obligations.FieldPositions := by
  intro h
  refine ⟨getField_eq_fieldValue h, ?ver, ?hlen, ?dscp, ?ecn, ?tlen, ?id, ?flags, ?frag, ?ttl, ?proto, ?csum,
    ?src, ?dst⟩
  case ver => exact congrArg (BitVec.setWidth 32) (extractLsb'_high_eq_byte h 0 (by decide) 4 4 (by decide))
  case hlen => exact congrArg (BitVec.setWidth 32) (extractLsb'_high_eq_byte h 0 (by decide) 0 4 (by decide))
  case dscp => exact congrArg (BitVec.setWidth 32) (extractLsb'_low_eq_byte h 0 (by decide) 2 6 (by decide))
  case ecn => exact congrArg (BitVec.setWidth 32) (extractLsb'_low_eq_byte h 0 (by decide) 0 2 (by decide))
  case tlen => exact congrArg (BitVec.setWidth 32) (word_eq_append_headerByte h 1 (by decide))
  case id => exact congrArg (BitVec.setWidth 32) (word_eq_append_headerByte h 2 (by decide))
  case flags => exact congrArg (BitVec.setWidth 32) (extractLsb'_high_eq_byte h 3 (by decide) 5 3 (by decide))
  case frag => exact congrArg (BitVec.setWidth 32) (extractLsb'_thirteen_eq_append_headerByte h 3 (by decide))
  case ttl => exact congrArg (BitVec.setWidth 32) (headerByte_even h 4 (by decide)).symm
  case proto => exact congrArg (BitVec.setWidth 32) (headerByte_odd h 4 (by decide)).symm
  case csum => exact congrArg (BitVec.setWidth 32) (word_eq_append_headerByte h 5 (by decide))
  case src => exact append_eq_append_headerByte h 6 (by decide)
  case dst => exact append_eq_append_headerByte h 8 (by decide)

end Sys2Proof.Machine
end

section
/-! The command port, the mixed-width views and the reads (20_memory.md R51 to R60): what a command's outcome depends on,
and the ports edge by edge. -/

namespace Sys2Proof.Machine

open Sys2Proof.Claims

/-! ## What a command's outcome depends on -/

/-- No instruction reads the response port: the response before it is replaced. -/
theorem exec_withRsp (i : Instr) (s : State) (r : Option Response) : exec i { s with rsp := r } = exec i s := by
  cases i with
  | wrf sel opa => cases sel <;> rfl
  | nop | sumclr | sumadd | sumrd | hcsum | assign | valid | rdf | rdw | wrw | stamp | dsteq => rfl

/-- No instruction reads the host's list: with another list it does the same and leaves that list. -/
theorem exec_withPort (i : Instr) (s t : State) (port : List HostEvent) (h : exec i s = .next t) :
    exec i { s with port := port } = .next { t with port := port } := by
  cases i with
  | nop | sumclr | sumrd | hcsum | assign | valid | rdf | dsteq => cases h; rfl
  | sumadd | rdw | wrw | stamp =>
    cases h
    simp only [exec, execSumadd, execRdw, execWrw, execStamp]
    (repeat' split) <;> rfl
  | wrf sel opa =>
    cases h
    simp only [exec, execWrf]
    cases sel <;> (repeat' split) <;> rfl

/-- A whole command does the same with another list of the host's coming actions. -/
theorem runCommand_withPort (c : Command) (s t : State) (port : List HostEvent) (h : runCommand c s = .next t) :
    runCommand c { s with port := port } = .next { t with port := port } := by
  cases hd : decode c with
  | ok i =>
    rw [runCommand_of_decode c i _ hd] at h ⊢
    exact exec_withPort i s t port h
  | error why =>
    rw [runCommand_of_illegal c why _ hd] at h ⊢
    cases h
    rfl

/-- An action of the host, once taken, does the same with another list of the actions after it. -/
theorem runEvent_withPort (e : HostEvent) (s t : State) (port : List HostEvent) (h : runEvent e s = .next t) :
    runEvent e { s with port := port } = .next { t with port := port } := by
  cases e with
  | idle | reset => cases h; rfl
  | command c => exact runCommand_withPort c s t port h

/-- Every action of the host leads to a next state (60_exceptions.md R209). -/
theorem exists_runEvent_eq_next (e : HostEvent) (s : State) : ∃ t, runEvent e s = .next t := by
  cases e with
  | idle | reset => exact ⟨_, rfl⟩
  | command c =>
    obtain ⟨t, ht, -⟩ := runCommand_cases c s
    exact ⟨t, ht⟩

/-- Every command is answered (20_memory.md R52). -/
theorem runCommand_rsp_isSome (c : Command) (s t : State) (h : runCommand c s = .next t) : t.rsp.isSome = true := by
  obtain ⟨u, hu, hcases⟩ := runCommand_cases c s
  obtain rfl : u = t := Host.Outcome.next.inj (hu.symm.trans h)
  obtain ⟨e, rfl⟩ | ⟨d, hrsp, -⟩ := hcases
  · rfl
  · rw [hrsp]; rfl

/-- A command that changes the header is legal and one of the header's writers (10_state.md R25). -/
theorem exists_decode_of_hdr_ne (c : Command) (s t : State) (h : runCommand c s = .next t) (hne : t.hdr ≠ s.hdr) :
    ∃ i, decode c = .ok i ∧ writesHeader i = true := by
  cases hd : decode c with
  | ok i =>
    rw [runCommand_of_decode c i s hd] at h
    refine ⟨i, rfl, ?_⟩
    by_contra hw
    exact hne ((onlyHeaderWritersChangeTheHeader i s t h).1 (Bool.eq_false_of_not_eq_true hw))
  | error why =>
    rw [runCommand_of_illegal c why s hd] at h
    cases h
    exact absurd rfl hne

/-! ## One step of the core machine -/

/-- Settles O13: `step_cons` and what `runCommand` does with a word that decodes and with one that does not. -/
theorem stepRunsTheDecodedCommand : Obligations.StepRunsTheDecodedCommand := by
  intro s c rest hport
  rw [step_cons s _ rest hport]
  constructor
  · intro i hd
    exact runCommand_of_decode c i _ hd
  · intro hno
    cases hd : decode c with
    | ok i => exact absurd hd (hno i)
    | error why => exact runCommand_of_illegal c why _ hd

/-- Settles O14: with no action and with an idle one a step is `clearResponse`. -/
theorem idleStepChangesNoRegister : Obligations.IdleStepChangesNoRegister :=
  fun s => ⟨step_nil s, fun rest hport => step_cons s .idle rest hport⟩

/-! ## Field views and word views -/

/-- The low bits of a field's value are its bits of the word. -/
theorem extractLsb'_readBits (w : Word) (lo width : Nat) (hw : width ≤ 32) :
    (readBits w lo width).extractLsb' 0 width = w.extractLsb' lo width := by
  rw [readBits, ← BitVec.setWidth_eq_extractLsb' hw, BitVec.setWidth_setWidth_of_le _ hw, BitVec.setWidth_eq]

/-- Word 0 is VER, HLEN, DSCP and ECN (20_memory.md R55). -/
theorem word_zero_eq_append_fields (h : Header) :
    h[0] = (getField h .ver).extractLsb' 0 4 ++ (getField h .hlen).extractLsb' 0 4 ++
      (getField h .dscp).extractLsb' 0 6 ++ (getField h .ecn).extractLsb' 0 2 := by
  simp (disch := decide) only [getField, fieldPlace, extractLsb'_readBits]
  rw [BitVec.extractLsb'_append_extractLsb'_eq_extractLsb' (start₁ := 8) (len₁ := 4) (by decide),
    BitVec.extractLsb'_append_extractLsb'_eq_extractLsb' (start₁ := 2) (len₁ := 6) (by decide)]
  exact (BitVec.extractLsb'_append_extractLsb' (w := 14) (len := 2)).symm

/-- Word 3 is FLAGS and FRAG (20_memory.md R55). -/
theorem word_three_eq_append_fields (h : Header) :
    h[3] = (getField h .flags).extractLsb' 0 3 ++ (getField h .frag).extractLsb' 0 13 := by
  simp (disch := decide) only [getField, fieldPlace, extractLsb'_readBits]
  exact (BitVec.extractLsb'_append_extractLsb' (w := 3) (len := 13)).symm

/-- Word 4 is TTL and PROTO (20_memory.md R55). -/
theorem word_four_eq_append_fields (h : Header) :
    h[4] = (getField h .ttl).extractLsb' 0 8 ++ (getField h .proto).extractLsb' 0 8 := by
  simp (disch := decide) only [getField, fieldPlace, extractLsb'_readBits]
  exact (BitVec.extractLsb'_append_extractLsb' (w := 8) (len := 8)).symm

/-- A field write is R21's column of words: the field's bits replaced, the word's others kept. -/
theorem setField_eq_fieldWritten (h : Header) (f : Field) (v : Data) : setField h f v = fieldWritten h v f := by
  cases f with
  | tlen | id | csum => exact congrArg (h.set _) (insertBits_zero_sixteen _ _)
  | src | dst => rfl
  | ver | hlen | dscp | ecn | flags | frag | ttl | proto =>
    refine congrArg (h.set _) (BitVec.eq_of_getLsbD_eq fun j hj => ?_)
    simp only [getLsbD_insertBits _ _ _ _ _ hj, BitVec.getLsbD_append, BitVec.getLsbD_extractLsb', lowWord]
    grind

/-- RDF answers the bits of R21's column of words (41_header_access.md R140). -/
theorem exec_rdf_field (f : Field) (s : State) :
    exec (.rdf (.field f)) s = .next { s with rsp := some ⟨fieldValue s.hdr f, .ok⟩ } := by
  rw [← getField_eq_fieldValue]
  rfl

/-- RDW answers the word (41_header_access.md R142). -/
theorem exec_rdw_of_lt (i : Fin 16) (s : State) (hi : i.val < 10) :
    exec (.rdw i) s = .next { s with rsp := some ⟨(s.hdr[i.val]).setWidth 32, .ok⟩ } :=
  congrArg _ (dif_pos hi)

/-- WRW that ends with code OK writes one word whole (41_header_access.md R143). -/
theorem stateAfter_wrw_of_lt (i : Fin 16) (w : Data) (s : State) (hi : i.val < 10) :
    stateAfter (.wrw i w) s = { s with hdr := s.hdr.set i.val (lowWord w) } :=
  dif_pos hi

/-- Settles O42: each word is its fields' bits side by side, and a write that ends with code OK leaves `stateAfter`, whose
header the read that follows it reads. -/
theorem fieldAndWordViewsAgree : Obligations.FieldAndWordViewsAgree := by
  refine ⟨fun s => ⟨rfl, ?word0, ?word3, ?word4⟩, ?rdfAfterWrw, ?rdwAfterWrf⟩
  case word0 => rw [← word_zero_eq_append_fields]; rfl
  case word3 => rw [← word_three_eq_append_fields]; rfl
  case word4 => rw [← word_four_eq_append_fields]; rfl
  case rdfAfterWrw =>
    intro s t i w d f hi h hok
    obtain rfl := exec_eq_respond_of_ok _ s t d h hok
    rw [exec_rdf_field, stateAfter_wrw_of_lt i w s hi]
    rfl
  case rdwAfterWrf =>
    intro s t i v d f hi h hok
    obtain rfl := exec_eq_respond_of_ok _ s t d h hok
    rw [exec_rdw_of_lt i _ hi, ← setField_eq_fieldWritten]
    rfl

/-! ## Reads -/

/-- A legal read answers with code OK and leaves the registers (20_memory.md R58). -/
theorem exec_of_onlyReads (i : Instr) (s : State) (hr : onlyReads i = true) (hwf : i.wellFormed = true) :
    ∃ d, exec i s = .next (respond d s) := by
  cases i with
  | sumrd | rdf | dsteq => exact ⟨_, rfl⟩
  | rdw idx => exact ⟨_, exec_rdw_of_lt idx s (of_decide_eq_true hwf)⟩
  | nop | sumclr | sumadd | hcsum | assign | valid | wrf | wrw | stamp => cases hr

/-- Settles O47: a read leaves a state that differs in the response alone, which no instruction reads; HCSUM and VALID
depend on the header alone. -/
theorem readsHaveNoSideEffects : Obligations.ReadsHaveNoSideEffects := by
  refine ⟨?_, ?_, ?_⟩
  · intro i s t hr hwf h
    obtain ⟨d, hd⟩ := exec_of_onlyReads i s hr hwf
    obtain rfl : respond d s = t := Host.Outcome.next.inj (hd.symm.trans h)
    exact ⟨rfl, (exec_withRsp i s _).trans h⟩
  · intro s t h
    cases h
    exact ⟨rfl, rfl⟩
  · intro s t h
    cases h
    exact ⟨rfl, rfl⟩

end Sys2Proof.Machine
end

section
/-! The ports edge by edge (20_memory.md R52, R53; 70_reset_and_hazards.md R230): what one clock edge does, said once for
each state of the command in progress, and what the edges from an acceptance to its response do. -/

namespace Sys2Proof.Machine

open Sys2Proof.Claims

/-! ## One edge -/

/-- An edge is its event in the core machine's terms, and what is in progress after it. -/
theorem clocked_edge_of_runEvent (latency : Latency) (p : Pins) (b : Clocked) (t : State)
    (h : runEvent (edgeEvent p b.inFlight) b.block = .next t) :
    b.edge latency p = .next ⟨t, inFlightAfter latency p b.inFlight⟩ := by
  simp only [Clocked.edge, h]

/-- An edge with nothing in progress captures the command presented, if one is, and only clears the response. -/
theorem clocked_edge_free (latency : Latency) (p : Pins) (s : State) (hrst : p.rst = false) :
    (Clocked.mk s none).edge latency p =
      .next ⟨clearResponse s, if p.cmdValid then some ⟨p.command, latency.cycles - 1⟩ else none⟩ := by
  simp [Clocked.edge, edgeEvent, inFlightAfter, runEvent, hrst]

/-- An edge before the completing one only counts down, and clears the response. -/
theorem clocked_edge_wait (latency : Latency) (p : Pins) (s : State) (c : Command) (n : Nat) (hrst : p.rst = false) :
    (Clocked.mk s (some ⟨c, n + 1⟩)).edge latency p = .next ⟨clearResponse s, some ⟨c, n⟩⟩ := by
  simp [Clocked.edge, edgeEvent, inFlightAfter, runEvent, hrst]

/-- The completing edge does the whole command, and nothing is in progress after it. -/
theorem clocked_edge_complete (latency : Latency) (p : Pins) (s t : State) (c : Command) (hrst : p.rst = false)
    (h : runCommand c s = .next t) : (Clocked.mk s (some ⟨c, 0⟩)).edge latency p = .next ⟨t, none⟩ := by
  simp [Clocked.edge, edgeEvent, inFlightAfter, runEvent, hrst, h]

/-- Settles O56: neither the event of an edge nor what is in progress after it depends on the command pins while a command
is in progress. -/
theorem busyBlockIgnoresTheCommandPins : Obligations.BusyBlockIgnoresTheCommandPins := by
  rintro latency ⟨s, _ | f⟩ p q hbusy hrst
  · cases hbusy
  · simp only [Clocked.edge, edgeEvent, inFlightAfter, hrst]

/-- A response shows as `rsp_valid` high where `rst` is low. -/
theorem clocked_rspValid_of_rsp_isSome (rst : Bool) (b : Clocked) (h : b.block.rsp.isSome = true) :
    b.rspValid rst = !rst := by
  rw [Clocked.rspValid, h, Bool.and_true]

/-- Settles O55: an edge that completes nothing keeps the header, and one that completes a command is that command. -/
theorem hdrOutChangesOnlyAtCompletion : Obligations.HdrOutChangesOnlyAtCompletion := by
  rintro latency ⟨s, f⟩ b' p h hrst hne
  obtain _ | ⟨c, _ | n⟩ := f
  case none =>
    rw [clocked_edge_free latency p s hrst] at h
    cases h
    exact absurd rfl hne
  case some.succ =>
    rw [clocked_edge_wait latency p s c n hrst] at h
    cases h
    exact absurd rfl hne
  case some.zero =>
    obtain ⟨t, ht, -⟩ := runCommand_cases c s
    rw [clocked_edge_complete latency p s t c hrst ht] at h
    cases h
    obtain ⟨i, hd, hw⟩ := exists_decode_of_hdr_ne c s t ht fun he => hne (congrArg headerBits he)
    exact ⟨fun rst => clocked_rspValid_of_rsp_isSome rst _ (runCommand_rsp_isSome c s t ht), _, i, rfl, rfl, ht, hd, hw⟩

/-! ## Edges one after another -/

theorem clocked_edges_cons (latency : Latency) (p : Pins) (ps : List Pins) (b b' : Clocked)
    (h : b.edge latency p = .next b') : b.edges latency (p :: ps) = b'.edges latency ps := by
  rw [Clocked.edges, h]

theorem core_run_succ (n : Nat) (s t : State) (h : step s = .next t) : core.run (n + 1) s = core.run n t := by
  have hcore : core.step s = .next t := h
  simp only [Host.Core.run, hcore]

/-- Settles O52: by induction on the pins. An edge is `runEvent` of its event and so is a step that finds the event at the
head of the host's list; which actions come after it makes no difference to `runEvent`. -/
theorem clockedBlockRefinesTheCoreMachine : Obligations.ClockedBlockRefinesTheCoreMachine := by
  intro latency pins b rest
  induction pins generalizing b with
  | nil => exact ⟨b, rfl, rfl⟩
  | cons p ps ih =>
    obtain ⟨t, ht⟩ := exists_runEvent_eq_next (edgeEvent p b.inFlight) b.block
    obtain ⟨b', hedges, hrun⟩ := ih ⟨t, inFlightAfter latency p b.inFlight⟩
    refine ⟨b', ?_, ?_⟩
    · rw [clocked_edges_cons latency p ps b _ (clocked_edge_of_runEvent latency p b t ht), hedges]
    · have hstep := (step_cons { b.block with port := edgeEvents latency (p :: ps) b.inFlight ++ rest } _ _ rfl).trans
        (runEvent_withPort _ b.block t _ ht)
      exact (core_run_succ ps.length _ _ hstep).trans hrun

/-! ## From acceptance to response -/

theorem clocked_accepts_iff (p : Pins) (b : Clocked) :
    b.accepts p = true ↔ p.cmdValid = true ∧ b.cmdReady p.rst = true ∧ p.rst = false := by
  cases hrst : p.rst <;> simp [Clocked.accepts, hrst]

/-- Edges with `rst` low before the completing one count down and leave the registers. -/
theorem clocked_edges_wait (latency : Latency) (s : State) (c : Command) (n : Nat) (ps qs : List Pins)
    (hrst : ∀ q ∈ ps, q.rst = false) :
    (Clocked.mk (clearResponse s) (some ⟨c, n + ps.length⟩)).edges latency (ps ++ qs) =
      (Clocked.mk (clearResponse s) (some ⟨c, n⟩)).edges latency qs := by
  induction ps with
  | nil => rfl
  | cons p ps ih =>
    obtain ⟨hp, hps⟩ := List.forall_mem_cons.mp hrst
    exact (clocked_edges_cons latency p (ps ++ qs) _ _
      (clocked_edge_wait latency p (clearResponse s) c (n + ps.length) hp)).trans (ih hps)

/-- The edge that accepts a command captures it, to complete `CMD_LATENCY` edges later, and only clears the response. -/
theorem clocked_edge_accept (latency : Latency) (p : Pins) (b : Clocked) (h : b.accepts p = true) :
    b.edge latency p = .next ⟨clearResponse b.block, some ⟨p.command, latency.cycles - 1⟩⟩ := by
  obtain ⟨s, f⟩ := b
  obtain ⟨hvalid, hready, hrst⟩ := (clocked_accepts_iff p _).mp h
  rw [hrst, clocked_cmdReady_no_rst] at hready
  obtain rfl : f = none := Option.isNone_iff_eq_none.mp hready
  rw [clocked_edge_free latency p s hrst, if_pos hvalid]

/-- Fewer than `CMD_LATENCY` edges after an acceptance the registers are as before and the command is in progress. -/
theorem clocked_edges_accept_wait (latency : Latency) (p : Pins) (b : Clocked) (h : b.accepts p = true) (ps : List Pins)
    (hrst : ∀ q ∈ ps, q.rst = false) (hlen : ps.length < latency.cycles) :
    b.edges latency (p :: ps) =
      .next ⟨clearResponse b.block, some ⟨p.command, latency.cycles - 1 - ps.length⟩⟩ := by
  have hwait := clocked_edges_wait latency b.block p.command (latency.cycles - 1 - ps.length) ps [] hrst
  rw [List.append_nil, Nat.sub_add_cancel (by omega)] at hwait
  exact (clocked_edges_cons latency p ps b _ (clocked_edge_accept latency p b h)).trans hwait

/-- `CMD_LATENCY` edges after an acceptance the command captured there is done. -/
theorem clocked_edges_accept_complete (latency : Latency) (p : Pins) (b : Clocked) (h : b.accepts p = true)
    (ps : List Pins) (hrst : ∀ q ∈ ps, q.rst = false) (hlen : ps.length = latency.cycles) (t : State)
    (ht : runCommand p.command (clearResponse b.block) = .next t) : b.edges latency (p :: ps) = .next ⟨t, none⟩ := by
  have hpos := latency.atLeast
  obtain rfl | ⟨qs, q, rfl⟩ := List.eq_nil_or_concat' ps
  · rw [List.length_nil] at hlen
    omega
  · rw [List.length_append, List.length_singleton] at hlen
    have hwait := clocked_edges_wait latency b.block p.command 0 qs [q] fun r hr => hrst r (List.mem_append_left _ hr)
    rw [Nat.zero_add, show qs.length = latency.cycles - 1 by omega] at hwait
    have hq : q.rst = false := hrst q (List.mem_append_right _ (List.mem_singleton_self q))
    calc b.edges latency (p :: (qs ++ [q]))
      _ = _ := clocked_edges_cons latency p _ b _ (clocked_edge_accept latency p b h)
      _ = _ := hwait
      _ = .next ⟨t, none⟩ := clocked_edges_cons latency q [] _ _ (clocked_edge_complete latency q _ t _ hq ht)

/-- With nothing in progress no edge leads to a response, whatever the pins show. -/
theorem clocked_edge_free_rsp_none (latency : Latency) (p : Pins) (s : State) :
    ∃ b', (Clocked.mk s none).edge latency p = .next b' ∧ b'.block.rsp = none := by
  cases hrst : p.rst with
  | true => exact ⟨_, clocked_edge_rst latency p _ hrst, rfl⟩
  | false => exact ⟨_, clocked_edge_free latency p s hrst, rfl⟩

/-- Settles O53: the edges from an acceptance are `clocked_edges_accept_wait` and `clocked_edges_accept_complete`, and the
edge after the response has nothing in progress. -/
theorem responseAfterLatency : Obligations.ResponseAfterLatency := by
  intro latency b p
  refine ⟨clocked_accepts_iff p b, ?accepted, ?idle⟩
  case accepted =>
    intro hacc ps hrst
    constructor
    · intro hlen
      exact ⟨_, clocked_edges_accept_wait latency p b hacc ps hrst hlen, rfl, rfl⟩
    · intro hlen
      obtain ⟨t, ht, -⟩ := runCommand_cases p.command (clearResponse b.block)
      refine ⟨⟨t, none⟩, clocked_edges_accept_complete latency p b hacc ps hrst hlen t ht, ht, ?_, rfl, ?_⟩
      · intro rst
        exact clocked_rspValid_of_rsp_isSome rst _ (runCommand_rsp_isSome _ _ t ht)
      · intro q
        obtain ⟨b'', hedge, hrsp⟩ := clocked_edge_free_rsp_none latency q t
        exact ⟨b'', hedge, fun rst => clocked_rspValid_of_rsp_none rst b'' hrsp⟩
  case idle =>
    obtain ⟨s, f⟩ := b
    rintro hrst hvalid rfl
    rw [clocked_edge_free latency p s hrst, hvalid]
    rfl

end Sys2Proof.Machine
end

section
/-! The decoder and the encoder (30_encoding.md R71 to R77): what each of their parts accepts, said once, and from it the
two round trips. -/

namespace Sys2Proof.Machine

open Sys2Proof.Claims Sys2Proof.Laws

/-! ## The fields of the command word -/

theorem opcode_ofBits_eq_some_iff (b : BitVec 4) (op : Opcode) : Opcode.ofBits b = some op ↔ b.toNat = op.number := by
  revert b
  cases op <;> decide

theorem opcode_ofBits_eq_none_iff (b : BitVec 4) : Opcode.ofBits b = none ↔ b.toNat ∈ [0xD, 0xE, 0xF] := by
  revert b
  decide

theorem selector_ofBits_eq_some_iff (b : BitVec 4) (sl : Selector) :
    Selector.ofBits b = some sl ↔ b.toNat = sl.number := by
  revert b
  rcases sl with f | _ | _
  · cases f <;> decide
  all_goals decide

theorem selector_ofBits_eq_none_iff (b : BitVec 4) : Selector.ofBits b = none ↔ b.toNat = 15 := by
  revert b
  decide

theorem selector_writable_eq_false_iff (sl : Selector) : sl.writable = false ↔ sl.number = 14 := by
  rcases sl with f | _ | _
  · cases f <;> decide
  all_goals decide

/-- The selector or index of a command word stands in `cmd[7:4]` (R71). -/
theorem selWord_sel (op : Opcode) (n : Nat) : (selWord op n).extractLsb' 4 4 = BitVec.ofNat 4 n := by
  have ho : op.number < 16 := by cases op <;> decide
  apply BitVec.eq_of_toNat_eq
  simp only [selWord, BitVec.extractLsb'_toNat, BitVec.toNat_ofNat, Nat.shiftRight_eq_div_pow]
  omega

/-- STAMP's `mf`, `ttl` and `dsz` stand in `cmd[4]`, `cmd[15:8]` and `cmd[31:16]` (R71). -/
theorem stampWord_fields (mf : Bool) (ttl : Byte) (dsz : Word) :
    (stampWord mf ttl dsz).getLsbD 4 = mf ∧ (stampWord mf ttl dsz).extractLsb' 8 8 = ttl ∧
      (stampWord mf ttl dsz).extractLsb' 16 16 = dsz := by
  have ht := ttl.isLt
  have hd := dsz.isLt
  have ho : Opcode.stamp.number = 11 := rfl
  refine ⟨?mf, BitVec.eq_of_toNat_eq ?ttl, BitVec.eq_of_toNat_eq ?dsz⟩
  case mf =>
    simp only [stampWord, ho, BitVec.getLsbD, BitVec.toNat_ofNat, Nat.testBit_eq_decide_div_mod_eq]
    cases mf <;> simp only [Bool.toNat_false, Bool.toNat_true, decide_eq_true_eq, decide_eq_false_iff_not] <;> omega
  all_goals
    have hm : mf.toNat < 2 := mf.toNat_lt
    simp only [stampWord, ho, BitVec.extractLsb'_toNat, BitVec.toNat_ofNat, Nat.shiftRight_eq_div_pow]
    omega

/-! ## Decoding what the encoder gives -/

theorem decode_of_opcode (c : Command) (op : Opcode) (hop : Opcode.ofBits (c.cmd.extractLsb' 0 4) = some op)
    (hclear : op.unusedClear c.cmd = true) : decode c = decodeOperands op c := by
  simp only [decode, hop, hclear, if_true]

theorem decode_eq_ok_iff (c : Command) (i : Instr) :
    decode c = .ok i ↔ ∃ op, Opcode.ofBits (c.cmd.extractLsb' 0 4) = some op ∧ op.unusedClear c.cmd = true ∧
      decodeOperands op c = .ok i := by
  constructor
  · intro h
    simp only [decode] at h
    split at h
    · cases h
    next op hop =>
      split at h
      next hclear => exact ⟨op, hop, hclear, h⟩
      · cases h
  · rintro ⟨op, hop, hclear, h⟩
    rw [decode_of_opcode c op hop hclear, h]

theorem accept_eq_ok_iff (why : Illegal) (i j : Instr) : accept why i = .ok j ↔ i.wellFormed = true ∧ i = j := by
  simp only [accept]
  split <;> simp_all

theorem accept_eq_error_iff (why : Illegal) (i : Instr) :
    (∃ why', accept why i = .error why') ↔ i.wellFormed = false := by
  simp only [accept]
  split <;> simp_all

theorem accept_of_wellFormed (why : Illegal) (i : Instr) (h : i.wellFormed = true) : accept why i = .ok i :=
  if_pos h

/-- The family of `Laws.EncodedFormat`, for every instruction. -/
theorem encodedFormat (i : Instr) : EncodedFormat.Statement i := by
  cases i with
  | nop => exact EncodedFormat.nop
  | sumclr => exact EncodedFormat.sumclr
  | sumadd opa => exact EncodedFormat.sumadd opa
  | sumrd => exact EncodedFormat.sumrd
  | hcsum => exact EncodedFormat.hcsum
  | assign => exact EncodedFormat.assign
  | valid => exact EncodedFormat.valid
  | rdf sl => exact EncodedFormat.rdf sl
  | wrf sl opa => exact EncodedFormat.wrf sl opa
  | rdw idx => exact EncodedFormat.rdw idx
  | wrw idx opa => exact EncodedFormat.wrw idx opa
  | stamp mf ttl dsz src dst => exact EncodedFormat.stamp mf ttl dsz src dst
  | dsteq a => exact EncodedFormat.dsteq a

/-- The selector of an encoded RDF or WRF is read back. -/
theorem selector_ofBits_selWord (op : Opcode) (sl : Selector) :
    Selector.ofBits ((selWord op sl.number).extractLsb' 4 4) = some sl := by
  have hlt := EncodedFormat.selector_number_lt sl
  rw [selWord_sel op sl.number, selector_ofBits_eq_some_iff, BitVec.toNat_ofNat, Nat.mod_eq_of_lt hlt]

/-- The index of an encoded RDW or WRW is read back. -/
theorem toFin_selWord (op : Opcode) (idx : Fin 16) : ((selWord op idx.val).extractLsb' 4 4).toFin = idx := by
  rw [selWord_sel op idx.val]
  exact Fin.ext (Nat.mod_eq_of_lt idx.isLt)

/-- The decoder takes apart what the encoder puts together. -/
theorem decodeOperands_encode (i : Instr) (h : i.wellFormed = true) :
    decodeOperands (opcodeOf i) (encode i) = .ok i := by
  cases i with
  | nop | sumclr | sumadd | sumrd | hcsum | assign | valid | dsteq => rfl
  | rdf sl => simp only [opcodeOf, encode, decodeOperands, selector_ofBits_selWord]
  | wrf sl opa => simp only [opcodeOf, encode, decodeOperands, selector_ofBits_selWord, accept_of_wellFormed _ _ h]
  | rdw idx => simp only [opcodeOf, encode, decodeOperands, toFin_selWord, accept_of_wellFormed _ _ h]
  | wrw idx opa => simp only [opcodeOf, encode, decodeOperands, toFin_selWord, accept_of_wellFormed _ _ h]
  | stamp mf ttl dsz src dst =>
    obtain ⟨hmf, httl, hdsz⟩ := stampWord_fields mf ttl dsz
    simp only [opcodeOf, encode, decodeOperands, hmf, httl, hdsz]

/-- Settles O2: the encoding has the instruction's opcode with its unused bits clear, and each field in its place. -/
theorem decodeOfEncodeIsTheInstruction : Obligations.DecodeOfEncodeIsTheInstruction := by
  intro i h
  obtain ⟨hop, hclear⟩ := encodedFormat i
  rw [decode_of_opcode _ _ hop hclear, decodeOperands_encode i h]

/-- Settles O1: each word is the encoding of its instruction. -/
theorem sampleCommandWordsDecode : Obligations.SampleCommandWordsDecode :=
  ⟨decodeOfEncodeIsTheInstruction .nop rfl, decodeOfEncodeIsTheInstruction (.sumadd 0xF203) rfl,
    decodeOfEncodeIsTheInstruction (.rdf (.field .flags)) rfl,
    decodeOfEncodeIsTheInstruction (.wrf (.field .dscp) 0x2E) rfl, decodeOfEncodeIsTheInstruction (.rdw 5) rfl,
    decodeOfEncodeIsTheInstruction (.wrw 3 0x4000) rfl,
    decodeOfEncodeIsTheInstruction (.stamp true 64 16 0xC0A80001 0xFFFFFFFF) rfl,
    decodeOfEncodeIsTheInstruction (.dsteq 0xC0A800C7) rfl⟩

/-! ## Encoding what the decoder accepts -/

/-- The opcode in `cmd[3:0]`, in the statements' terms. -/
theorem op_eq_number (cmd : Data) (code : Opcode) (h : Opcode.ofBits (cmd.extractLsb' 0 4) = some code) :
    op cmd = code.number :=
  (opcode_ofBits_eq_some_iff _ _).mp h

/-- A word with nothing above bit 3 is its opcode's word. -/
theorem plainWord_eq_of_unusedClear (cmd : Data) (code : Opcode) (hop : op cmd = code.number)
    (hclear : cmd.extractLsb' 4 28 = 0) : plainWord code = cmd := by
  have ho : code.number < 16 := by cases code <;> decide
  have hhigh := congrArg BitVec.toNat hclear
  apply BitVec.eq_of_toNat_eq
  simp only [op, plainWord, BitVec.extractLsb'_toNat, BitVec.ofNat_eq_ofNat, BitVec.toNat_ofNat,
    Nat.shiftRight_eq_div_pow] at *
  omega

/-- A word with nothing above bit 7 is its opcode's word with what `cmd[7:4]` holds. -/
theorem selWord_eq_of_unusedClear (cmd : Data) (code : Opcode) (n : Nat) (hop : op cmd = code.number)
    (hsel : sel cmd = n) (hclear : cmd.extractLsb' 8 24 = 0) : selWord code n = cmd := by
  have ho : code.number < 16 := by cases code <;> decide
  have hhigh := congrArg BitVec.toNat hclear
  apply BitVec.eq_of_toNat_eq
  simp only [op, sel, selWord, BitVec.extractLsb'_toNat, BitVec.ofNat_eq_ofNat, BitVec.toNat_ofNat,
    Nat.shiftRight_eq_div_pow] at *
  omega

/-- A STAMP word with nothing in bits 7 to 5 is the STAMP word of its fields. -/
theorem stampWord_eq_of_unusedClear (cmd : Data) (hop : op cmd = Opcode.stamp.number)
    (hclear : cmd.extractLsb' 5 3 = 0) :
    stampWord (cmd.getLsbD 4) (cmd.extractLsb' 8 8) (cmd.extractLsb' 16 16) = cmd := by
  have hmid := congrArg BitVec.toNat hclear
  have hmf : (cmd.getLsbD 4).toNat = cmd.toNat / 2 ^ 4 % 2 := by
    rw [BitVec.getLsbD, Nat.toNat_testBit]
  have ho : Opcode.stamp.number = 11 := rfl
  apply BitVec.eq_of_toNat_eq
  simp only [op, stampWord, ho, hmf, BitVec.extractLsb'_toNat, BitVec.ofNat_eq_ofNat, BitVec.toNat_ofNat,
    Nat.shiftRight_eq_div_pow] at *
  omega

/-- RDF takes any selector that names something, by its number (R73). -/
theorem decodeOperands_rdf_eq_ok_iff (c : Command) (i : Instr) :
    decodeOperands .rdf c = .ok i ↔ ∃ sl : Selector, sel c.cmd = sl.number ∧ .rdf sl = i := by
  simp only [sel, ← selector_ofBits_eq_some_iff, decodeOperands]
  cases Selector.ofBits (c.cmd.extractLsb' 4 4) <;> simp

/-- WRF takes a selector that names something it can write (R73). -/
theorem decodeOperands_wrf_eq_ok_iff (c : Command) (i : Instr) :
    decodeOperands .wrf c = .ok i ↔
      ∃ sl : Selector, sel c.cmd = sl.number ∧ sl.writable = true ∧ .wrf sl c.opa = i := by
  simp only [sel, ← selector_ofBits_eq_some_iff, decodeOperands]
  cases Selector.ofBits (c.cmd.extractLsb' 4 4) <;> simp [accept_eq_ok_iff, Instr.wellFormed]

/-- Settles O3: by cases on the opcode; a word is determined by its opcode, its clear bits and its fields. -/
theorem encodeOfDecodeGivesTheCommandBack : Obligations.EncodeOfDecodeGivesTheCommandBack := by
  intro c i h
  obtain ⟨code, hop, hclear, hd⟩ := (decode_eq_ok_iff c i).mp h
  have hcode := op_eq_number c.cmd code hop
  cases code with
  | nop | sumclr | sumrd | hcsum | assign | valid =>
    cases hd
    refine ⟨rfl, plainWord_eq_of_unusedClear _ _ hcode (eq_of_beq hclear), fun hr => ?_, fun hr => ?_⟩ <;>
      exact absurd (hcode ▸ hr) (by decide)
  | sumadd | dsteq =>
    cases hd
    exact ⟨rfl, plainWord_eq_of_unusedClear _ _ hcode (eq_of_beq hclear), fun _ => rfl,
      fun hr => absurd (hcode ▸ hr) (by decide)⟩
  | rdf =>
    obtain ⟨sl, hsel, rfl⟩ := (decodeOperands_rdf_eq_ok_iff c i).mp hd
    refine ⟨rfl, selWord_eq_of_unusedClear _ _ _ hcode hsel (eq_of_beq hclear), fun hr => ?_, fun hr => ?_⟩ <;>
      exact absurd (hcode ▸ hr) (by decide)
  | wrf =>
    obtain ⟨sl, hsel, hw, rfl⟩ := (decodeOperands_wrf_eq_ok_iff c i).mp hd
    exact ⟨hw, selWord_eq_of_unusedClear _ _ _ hcode hsel (eq_of_beq hclear), fun _ => rfl,
      fun hr => absurd (hcode ▸ hr) (by decide)⟩
  | rdw =>
    obtain ⟨hwf, rfl⟩ := (accept_eq_ok_iff _ _ _).mp hd
    refine ⟨hwf, selWord_eq_of_unusedClear _ _ _ hcode rfl (eq_of_beq hclear), fun hr => ?_, fun hr => ?_⟩ <;>
      exact absurd (hcode ▸ hr) (by decide)
  | wrw =>
    obtain ⟨hwf, rfl⟩ := (accept_eq_ok_iff _ _ _).mp hd
    exact ⟨hwf, selWord_eq_of_unusedClear _ _ _ hcode rfl (eq_of_beq hclear), fun _ => rfl,
      fun hr => absurd (hcode ▸ hr) (by decide)⟩
  | stamp =>
    cases hd
    exact ⟨rfl, stampWord_eq_of_unusedClear _ hcode (eq_of_beq hclear), fun _ => rfl, fun _ => rfl⟩

end Sys2Proof.Machine
end

section
/-! The order of checks (60_exceptions.md R203): which command words the decoder rejects, which legal commands end with
RANGE or CAPACITY, and that operands a command does not read have no effect. -/

namespace Sys2Proof.Machine

open Sys2Proof.Claims Sys2Proof.Laws

/-! ## Operands the opcode does not read -/

/-- Commands with one word decode alike if the word's opcode takes the same from both. -/
theorem decode_congr (cmd opa opb opa' opb' : Data)
    (h : ∀ code, op cmd = code.number → decodeOperands code ⟨cmd, opa, opb⟩ = decodeOperands code ⟨cmd, opa', opb'⟩) :
    decode ⟨cmd, opa, opb⟩ = decode ⟨cmd, opa', opb'⟩ := by
  cases hop : Opcode.ofBits (cmd.extractLsb' 0 4) with
  | none => simp only [decode, hop]
  | some code => simp only [decode, hop, h code (op_eq_number cmd code hop)]

theorem decodeOperands_of_reads_none (code : Opcode) (cmd opa opb opa' opb' : Data)
    (h : code.number ∉ [0x2, 0x8, 0xA, 0xB, 0xC]) :
    decodeOperands code ⟨cmd, opa, opb⟩ = decodeOperands code ⟨cmd, opa', opb'⟩ := by
  cases code with
  | nop | sumclr | sumrd | hcsum | assign | valid | rdf | rdw => rfl
  | sumadd | wrf | wrw | stamp | dsteq => exact absurd (by decide) h

theorem decodeOperands_of_ne_stamp (code : Opcode) (cmd opa opb opb' : Data) (h : code.number ≠ 0xB) :
    decodeOperands code ⟨cmd, opa, opb⟩ = decodeOperands code ⟨cmd, opa, opb'⟩ := by
  cases code with
  | stamp => exact absurd rfl h
  | nop | sumclr | sumadd | sumrd | hcsum | assign | valid | rdf | wrf | rdw | wrw | dsteq => rfl

/-- Settles O5: a command's outcome depends on what it decodes to, and that on the operands its opcode reads. -/
theorem ignoredOperandsHaveNoEffect : Obligations.IgnoredOperandsHaveNoEffect := by
  intro cmd opa opa' opb opb' s
  constructor
  · intro h
    simp only [runCommand, decode_congr cmd opa opb opa' opb' fun code hcode =>
      decodeOperands_of_reads_none code cmd opa opb opa' opb' (hcode ▸ h)]
  · intro h
    simp only [runCommand, decode_congr cmd opa opb opa opb' fun code hcode =>
      decodeOperands_of_ne_stamp code cmd opa opb opb' (hcode ▸ h)]

/-! ## The listed words (30_encoding.md R77) -/

theorem unusedBitSet_iff (cmd : Data) (code : Opcode) (h : op cmd = code.number) :
    UnusedBitSet cmd ↔ code.unusedClear cmd = false := by
  cases code <;> simp [UnusedBitSet, h, Opcode.number, Opcode.unusedClear]

/-- Check 3 of R203: the decoder rejects the selectors and indices that name nothing the opcode can use. -/
theorem decodeOperands_eq_error_iff (code : Opcode) (c : Command) :
    (∃ why, decodeOperands code c = .error why) ↔
      (code.number = 0x7 ∧ sel c.cmd = 15) ∨ (code.number = 0x8 ∧ sel c.cmd ∈ [14, 15]) ∨
        (code.number ∈ [0x9, 0xA] ∧ 10 ≤ sel c.cmd) := by
  cases code with
  | nop | sumclr | sumadd | sumrd | hcsum | assign | valid | stamp | dsteq => simp [decodeOperands, Opcode.number]
  | rdf =>
    simp only [sel, ← selector_ofBits_eq_none_iff, decodeOperands]
    cases Selector.ofBits (c.cmd.extractLsb' 4 4) <;> simp [Opcode.number]
  | wrf =>
    simp only [decodeOperands]
    cases hsl : Selector.ofBits (c.cmd.extractLsb' 4 4) with
    | none => simp [Opcode.number, sel, (selector_ofBits_eq_none_iff _).mp hsl]
    | some sl =>
      have hnum : sel c.cmd = sl.number := (selector_ofBits_eq_some_iff _ _).mp hsl
      have h15 : sel c.cmd ≠ 15 := fun h => by cases hsl.symm.trans ((selector_ofBits_eq_none_iff _).mpr h)
      simp only [accept_eq_error_iff, Instr.wellFormed, selector_writable_eq_false_iff, ← hnum]
      simp [Opcode.number, h15]
  | rdw | wrw =>
    simp only [decodeOperands, accept_eq_error_iff, Instr.wellFormed]
    simp [Opcode.number, sel]

/-- The decoder rejects exactly the words that R77 lists. -/
theorem decode_eq_error_iff (c : Command) : (∃ why, decode c = .error why) ↔ Listed c.cmd := by
  cases hop : Opcode.ofBits (c.cmd.extractLsb' 0 4) with
  | none =>
    have hdec : decode c = .error .reservedOpcode := by simp only [decode, hop]
    exact iff_of_true ⟨_, hdec⟩ (.inl ((opcode_ofBits_eq_none_iff _).mp hop))
  | some code =>
    have hcode := op_eq_number c.cmd code hop
    have hlegal : code.number ∉ [0xD, 0xE, 0xF] := by cases code <;> decide
    rw [Listed, unusedBitSet_iff c.cmd code hcode, hcode, ← decodeOperands_eq_error_iff]
    cases hclear : code.unusedClear c.cmd with
    | false =>
      have hdec : decode c = .error .unusedBits := by simp [decode, hop, hclear]
      exact iff_of_true ⟨_, hdec⟩ (.inr (.inl rfl))
    | true =>
      rw [decode_of_opcode c code hop hclear]
      simp [hlegal]

/-! ## The operand checks (30_encoding.md R78, 42_container.md R171) -/

/-- The operand fits what the instruction writes it to or adds it to. -/
def operandFits : Instr → Bool
  | .sumadd opa | .wrw _ opa => fitsWord opa
  | .wrf sl opa => fitsSelector sl opa
  | .nop | .sumclr | .sumrd | .hcsum | .assign | .valid | .rdf _ | .rdw _ | .stamp _ _ _ _ _ | .dsteq _ => true

/-- The datagram a STAMP announces fits the payload capacity. -/
def withinCapacity (size : PacketSize) : Instr → Bool
  | .stamp _ _ dsz _ _ => decide (dsz.toNat ≤ payloadCap size)
  | .nop | .sumclr | .sumadd _ | .sumrd | .hcsum | .assign | .valid | .rdf _ | .wrf _ _ | .rdw _ | .wrw _ _
  | .dsteq _ => true

theorem exec_of_not_operandFits (i : Instr) (s : State) (hwf : i.wellFormed = true) (h : operandFits i = false) :
    exec i s = .next (raiseError .range s) := by
  cases i with
  | sumadd opa => exact congrArg _ (if_neg (Bool.eq_false_iff.mp h))
  | wrf sl opa => exact congrArg _ ((if_pos hwf).trans (if_neg (Bool.eq_false_iff.mp h)))
  | wrw idx opa =>
    exact congrArg Host.Outcome.next ((dif_pos (of_decide_eq_true hwf)).trans (if_neg (Bool.eq_false_iff.mp h)))
  | nop | sumclr | sumrd | hcsum | assign | valid | rdf | rdw | stamp | dsteq => cases h

theorem exec_of_not_withinCapacity (i : Instr) (s : State) (h : withinCapacity s.packetSize i = false) :
    exec i s = .next (raiseError .capacity s) := by
  cases i with
  | stamp mf ttl dsz src dst => exact congrArg _ (if_pos (Nat.lt_of_not_le (of_decide_eq_false h)))
  | nop | sumclr | sumadd | sumrd | hcsum | assign | valid | rdf | wrf | rdw | wrw | dsteq => cases h

/-- An instruction that passes every check answers with code OK over `stateAfter`. -/
theorem exec_of_checks (i : Instr) (s : State) (hwf : i.wellFormed = true) (hfit : operandFits i = true)
    (hcap : withinCapacity s.packetSize i = true) : ∃ d, exec i s = .next (respond d (stateAfter i s)) := by
  cases i with
  | nop | sumclr | sumrd | hcsum | assign | valid | rdf | dsteq => exact ⟨_, rfl⟩
  | sumadd opa => exact ⟨_, congrArg _ (if_pos hfit)⟩
  | wrf sl opa => exact ⟨0, congrArg _ ((if_pos hwf).trans (if_pos hfit))⟩
  | rdw idx => exact ⟨_, exec_rdw_of_lt idx s (of_decide_eq_true hwf)⟩
  | wrw idx opa =>
    have hidx := of_decide_eq_true hwf
    rw [stateAfter_wrw_of_lt idx opa s hidx]
    exact ⟨0, congrArg Host.Outcome.next ((dif_pos hidx).trans (if_pos hfit))⟩
  | stamp mf ttl dsz src dst => exact ⟨_, congrArg _ (if_neg (Nat.not_lt_of_le (of_decide_eq_true hcap)))⟩

/-- No instruction that ends with code OK changes a sticky bit (10_state.md R28). -/
theorem stateAfter_sticky (i : Instr) (s : State) (e : ErrorCode) :
    (stateAfter i s).status.sticky e = s.status.sticky e := by
  by_cases hv : i = .valid
  · subst hv
    exact status_sticky_setV e _ _
  · rw [stateAfter_status_of_ne_valid i s hv]

/-! ## The operand checks in the command's terms -/

theorem op_encode (i : Instr) : op (encode i).cmd = (opcodeOf i).number :=
  op_eq_number _ _ (encodedFormat i).1

theorem sel_selWord (code : Opcode) (n : Nat) (h : n < 16) : sel (selWord code n) = n := by
  rw [sel, selWord_sel, BitVec.toNat_ofNat, Nat.mod_eq_of_lt h]

theorem widths_getD_number (sl : Selector) : widths.getD sl.number 0 = selectorWidth sl := by
  rcases sl with f | _ | _
  · cases f <;> rfl
  all_goals rfl

/-- A legal command's operand is too wide exactly if its instruction's does not fit. -/
theorem operandTooWide_iff (c : Command) (i : Instr) (h : decode c = .ok i) :
    OperandTooWide c ↔ operandFits i = false := by
  obtain ⟨-, hcmd, hopa, -⟩ := encodeOfDecodeGivesTheCommandBack c i h
  have hop := op_encode i
  rw [hcmd] at hop
  rw [hop] at hopa
  cases i with
  | nop | sumclr | sumrd | hcsum | assign | valid | rdf | rdw | stamp | dsteq =>
    simp [OperandTooWide, hop, opcodeOf, Opcode.number, operandFits]
  | sumadd opa | wrw idx opa =>
    obtain rfl : opa = c.opa := hopa (by simp [opcodeOf, Opcode.number])
    simp [OperandTooWide, hop, opcodeOf, Opcode.number, operandFits, fitsWord]
  | wrf sl opa =>
    obtain rfl : opa = c.opa := hopa (by simp [opcodeOf, Opcode.number])
    have hsel : sel c.cmd = sl.number := by
      rw [← hcmd]
      exact sel_selWord .wrf sl.number (EncodedFormat.selector_number_lt sl)
    rw [OperandTooWide, hsel, widths_getD_number]
    simp [hop, opcodeOf, Opcode.number, operandFits, fitsSelector]

/-- A legal command is over capacity exactly if its instruction is a STAMP of a datagram that does not fit. -/
theorem overCapacity_iff (c : Command) (s : State) (i : Instr) (h : decode c = .ok i) :
    OverCapacity c s ↔ withinCapacity s.packetSize i = false := by
  obtain ⟨-, hcmd, -, -⟩ := encodeOfDecodeGivesTheCommandBack c i h
  have hop := op_encode i
  rw [hcmd] at hop
  cases i with
  | nop | sumclr | sumadd | sumrd | hcsum | assign | valid | rdf | wrf | rdw | wrw | dsteq =>
    simp [OverCapacity, hop, opcodeOf, Opcode.number, withinCapacity]
  | stamp mf ttl dsz src dst =>
    obtain ⟨-, -, hdsz⟩ := stampWord_fields mf ttl dsz
    rw [show stampWord mf ttl dsz = c.cmd from hcmd] at hdsz
    rw [OverCapacity, hop, hdsz, withinCapacity, decide_eq_false_iff_not, Nat.not_le]
    exact and_iff_right rfl

/-- A word that is not listed decodes, to a well-formed instruction. -/
theorem exists_decode_of_not_listed (c : Command) (h : ¬ Listed c.cmd) :
    ∃ i, decode c = .ok i ∧ i.wellFormed = true := by
  cases hd : decode c with
  | ok i => exact ⟨i, rfl, (encodeOfDecodeGivesTheCommandBack c i hd).1⟩
  | error why => exact absurd ((decode_eq_error_iff c).mp ⟨why, hd⟩) h

/-- Settles O6: what the decoder rejects, what each operand check refuses, and what passes all checks. -/
theorem everyCommandHasExactlyOneFate : Obligations.EveryCommandHasExactlyOneFate := by
  intro c s
  refine ⟨?illegal, ?range, ?capacity, ?exclusive, ?executes⟩
  case illegal =>
    intro hl
    obtain ⟨why, hd⟩ := (decode_eq_error_iff c).mpr hl
    exact runCommand_of_illegal c why s hd
  case range =>
    intro hl hwide
    obtain ⟨i, hd, hwf⟩ := exists_decode_of_not_listed c hl
    exact (runCommand_of_decode c i s hd).trans
      (exec_of_not_operandFits i s hwf ((operandTooWide_iff c i hd).mp hwide))
  case capacity =>
    intro hl hcap
    obtain ⟨i, hd, -⟩ := exists_decode_of_not_listed c hl
    exact (runCommand_of_decode c i s hd).trans
      (exec_of_not_withinCapacity i s ((overCapacity_iff c s i hd).mp hcap))
  case exclusive =>
    rintro ⟨hwide, hop, -⟩
    simp [OperandTooWide, hop] at hwide
  case executes =>
    intro hl hwide hcap
    obtain ⟨i, hd, hwf⟩ := exists_decode_of_not_listed c hl
    rw [operandTooWide_iff c i hd, Bool.not_eq_false] at hwide
    rw [overCapacity_iff c s i hd, Bool.not_eq_false] at hcap
    obtain ⟨d, hexec⟩ := exec_of_checks i s hwf hwide hcap
    exact ⟨i, _, d, hd, runCommand_of_decode c i s hd, hexec, rfl, stateAfter_sticky i s .illegal,
      stateAfter_sticky i s .range, stateAfter_sticky i s .capacity⟩

/-- Settles O4: of a command's fates only that of a listed word answers with ILLEGAL. -/
theorem illegalExactlyOnTheListedWords : Obligations.IllegalExactlyOnTheListedWords := by
  intro c s
  obtain ⟨hlisted, hrange, hcapacity, -, hok⟩ := everyCommandHasExactlyOneFate c s
  by_cases hl : Listed c.cmd
  · exact ⟨_, hlisted hl, iff_of_true ⟨0, rfl⟩ hl⟩
  by_cases hwide : OperandTooWide c
  · exact ⟨_, hrange hl hwide, iff_of_false (by simp [afterRange]) hl⟩
  by_cases hcap : OverCapacity c s
  · exact ⟨_, hcapacity hl hcap, iff_of_false (by simp [afterCapacity]) hl⟩
  · obtain ⟨i, t, d, -, hrun, hexec, hrsp, -⟩ := hok hl hwide hcap
    exact ⟨t, hrun.trans hexec, iff_of_false (by simp [hrsp]) hl⟩

end Sys2Proof.Machine
end

section
/-! The assembler (30_encoding.md R82) and the pseudo-instructions (R83): a line's command is its instruction's encoding,
and what the commands of an expansion do one after another. -/

namespace Sys2Proof.Machine

open Sys2Proof.Claims Sys2Proof.Laws

/-! ## Lines -/

theorem asmCommand_toNat (n : Nat) (opa opb : Data) :
    asmCommand n opa.toNat opb.toNat = some ⟨BitVec.ofNat 32 n, opa, opb⟩ := by
  rw [asmCommand, if_pos ⟨opa.isLt, opb.isLt⟩, BitVec.ofNat_toNat, BitVec.ofNat_toNat, BitVec.setWidth_eq,
    BitVec.setWidth_eq]

/-- The assembler's shifted selector or index is the encoder's. -/
theorem asmCommand_sel (code : Opcode) (n : Nat) (opa : Data) :
    asmCommand (n <<< 4 ||| code.number) opa.toNat 0 = some ⟨selWord code n, opa, 0⟩ := by
  have ho : code.number < 2 ^ 4 := by cases code <;> decide
  rw [← Nat.shiftLeft_add_eq_or_of_lt ho, Nat.shiftLeft_eq]
  exact asmCommand_toNat _ opa 0

theorem assemble_wrw (i : Fin 16) (w : Data) : assemble (.wrw i.val w.toNat) = some (encode (.wrw i w)) :=
  (if_pos (Nat.le_of_lt_succ i.isLt)).trans (asmCommand_sel .wrw i.val w)

theorem assemble_rdw (i : Fin 16) : assemble (.rdw i.val) = some (encode (.rdw i)) :=
  (if_pos (Nat.le_of_lt_succ i.isLt)).trans (asmCommand_sel .rdw i.val 0)

theorem assemble_sumadd (w : Data) : assemble (.sumadd w.toNat) = some (encode (.sumadd w)) :=
  asmCommand_toNat 0x2 w 0

/-- STAMP's shifted fields do not overlap. -/
theorem assemble_stamp (mf : Bool) (ttl : Byte) (dsz : Word) (src dst : Data) :
    assemble (.stamp ttl.toNat mf.toNat dsz.toNat src.toNat dst.toNat) = some (encode (.stamp mf ttl dsz src dst)) := by
  have hm : mf.toNat < 2 := mf.toNat_lt
  have ht := ttl.isLt
  have hd := dsz.isLt
  have hword : dsz.toNat <<< 16 ||| ttl.toNat <<< 8 ||| mf.toNat <<< 4 ||| 0xB =
      dsz.toNat * 2 ^ 16 + ttl.toNat * 2 ^ 8 + mf.toNat * 2 ^ 4 + Opcode.stamp.number := by
    rw [Nat.or_assoc, Nat.or_assoc, ← Nat.shiftLeft_add_eq_or_of_lt (i := 4) (by decide),
      ← Nat.shiftLeft_add_eq_or_of_lt (i := 8) (by rw [Nat.shiftLeft_eq]; omega),
      ← Nat.shiftLeft_add_eq_or_of_lt (i := 16) (by rw [Nat.shiftLeft_eq, Nat.shiftLeft_eq]; omega)]
    simp only [Nat.shiftLeft_eq, Opcode.number, Nat.add_assoc]
  rw [assemble, if_pos (by omega), hword]
  exact asmCommand_toNat _ src dst

/-- The rows of R73 stand at their numbers, all of which fit the selector's four bits. -/
theorem selectors_getElem?_eq_some (n : Nat) (sl : Selector) (h : selectors[n]? = some sl) : n ≤ 15 ∧ n = sl.number := by
  obtain ⟨hn, rfl⟩ := List.getElem?_eq_some_iff.mp h
  have hrows : ∀ k : Fin selectors.length, k.val ≤ 15 ∧ k.val = (selectors.get k).number := by
    decide
  exact hrows ⟨n, hn⟩

/-- Settles O57: by the rows of R82. -/
theorem assemblerAgreesWithTheEncoder : Obligations.AssemblerAgreesWithTheEncoder := by
  refine ⟨asmCommand_toNat 0x0 0 0, asmCommand_toNat 0x1 0 0, asmCommand_toNat 0x3 0 0, asmCommand_toNat 0x4 0 0,
    asmCommand_toNat 0x5 0 0, asmCommand_toNat 0x6 0 0, assemble_sumadd, ?selector,
    fun i => ⟨assemble_rdw i, assemble_wrw i⟩, assemble_stamp, fun a => asmCommand_toNat 0xC a 0, ?index, ?stamp⟩
  case selector =>
    intro n sl h
    obtain ⟨hn, rfl⟩ := selectors_getElem?_eq_some n sl h
    exact ⟨(if_pos hn).trans (asmCommand_sel .rdf _ 0), fun v => (if_pos hn).trans (asmCommand_sel .wrf _ v)⟩
  case index =>
    intro i w h
    exact ⟨if_neg (Nat.not_le_of_lt h), if_neg (Nat.not_le_of_lt h)⟩
  case stamp =>
    intro t m n s d h
    exact if_neg (by omega)

/-! ## Expansions -/

theorem assembleLines_map {α : Type} (xs : List α) (line : α → AsmLine) (cmd : α → Command)
    (h : ∀ x ∈ xs, assemble (line x) = some (cmd x)) : assembleLines (xs.map line) = some (xs.map cmd) := by
  induction xs with
  | nil => rfl
  | cons x xs ih =>
    obtain ⟨hx, hxs⟩ := List.forall_mem_cons.mp h
    simp only [List.map_cons, assembleLines, hx, ih hxs]

theorem assembleLines_append (ls ls' : List AsmLine) (cs cs' : List Command) (h : assembleLines ls = some cs)
    (h' : assembleLines ls' = some cs') : assembleLines (ls ++ ls') = some (cs ++ cs') := by
  induction ls generalizing cs with
  | nil => cases h; exact h'
  | cons l ls ih =>
    simp only [assembleLines] at h
    split at h
    next c cs hl hls =>
      cases h
      simp only [List.cons_append, assembleLines, hl, ih cs hls]
    · cases h

theorem runAll_cons (c : Command) (cs : List Command) (s t : State) (h : runCommand c s = .next t) :
    runAll (c :: cs) s = runAll cs t := by
  simp only [runAll, h]

theorem runAll_append (cs cs' : List Command) (s t : State) (h : runAll cs s = some t) :
    runAll (cs ++ cs') s = runAll cs' t := by
  induction cs generalizing s with
  | nil => cases h; rfl
  | cons c cs ih =>
    obtain ⟨u, hu, -⟩ := runCommand_cases c s
    rw [runAll_cons c cs s u hu] at h
    exact (runAll_cons c (cs ++ cs') s u hu).trans (ih u h)

/-- A zero-extended word fits a word. -/
theorem fitsWord_zextWord (w : Word) : fitsWord (zextWord w) = true := by
  have hw := w.isLt
  refine beq_of_eq (BitVec.eq_of_toNat_eq ?_)
  simp only [zextWord, BitVec.extractLsb'_toNat, BitVec.toNat_setWidth, Nat.shiftRight_eq_div_pow,
    BitVec.ofNat_eq_ofNat, BitVec.toNat_ofNat]
  omega

theorem zextWord_toNat (w : Word) : (zextWord w).toNat = w.toNat :=
  BitVec.toNat_setWidth_of_le (by decide)

/-! ### LDHDR and CLRHDR -/

/-- The command that loads word `p.2` of the header with `p.1`. -/
def loadWord (p : Word × Nat) : Command := ⟨selWord .wrw p.2, zextWord p.1, 0⟩

theorem runCommand_loadWord (w : Word) (i : Nat) (hi : i < 10) (s : State) :
    runCommand (loadWord (w, i)) s = .next (respond 0 { s with hdr := s.hdr.set i w }) := by
  have hdecode := decodeOfEncodeIsTheInstruction (.wrw ⟨i, by omega⟩ (zextWord w)) (decide_eq_true hi)
  refine (runCommand_of_decode (loadWord (w, i)) _ s hdecode).trans ?_
  simp only [exec, execWrw, dif_pos hi, if_pos (fitsWord_zextWord w), lowWord_zextWord]

/-- With the words before `k` loaded, the commands for the others load them. -/
theorem runAll_loadWord (ws : Header) (n k : Nat) (hk : k + n = 10) (s : State)
    (hloaded : ∀ (j : Nat) (hj : j < k), s.hdr[j] = ws[j]) (hrsp : 0 < k → s.rsp = some ⟨0, .ok⟩) :
    runAll (((ws.toList.drop k).zipIdx k).map loadWord) s = some { s with hdr := ws, rsp := some ⟨0, .ok⟩ } := by
  induction n generalizing k s with
  | zero =>
    obtain rfl : k = 10 := hk
    have hhdr : s.hdr = ws := Vector.ext hloaded
    rw [List.drop_of_length_le (by simp), ← hhdr, ← hrsp (by decide)]
    rfl
  | succ n ih =>
    have hlt : k < 10 := by omega
    rw [List.drop_eq_getElem_cons (by simpa using hlt), List.zipIdx_cons, List.map_cons,
      runAll_cons _ _ s _ (runCommand_loadWord _ k hlt s), ih (k + 1) (by omega)]
    · rfl
    · intro j hj
      rw [respond_hdr, Vector.getElem_set]
      split
      next h => subst h; simp
      next h => exact hloaded j (by omega)
    · intro _
      rfl

theorem assemble_loadWord (w : Word) (i : Nat) (hi : i < 16) : assemble (.wrw i w.toNat) = some (loadWord (w, i)) := by
  rw [← zextWord_toNat]
  exact assemble_wrw ⟨i, hi⟩ (zextWord w)

theorem assembleSource_ldhdr (ws : Header) :
    assembleSource (.pseudo (.ldhdr (ws.map BitVec.toNat))) = some (ws.toList.zipIdx.map loadWord) := by
  have hlines : expand (.ldhdr (ws.map BitVec.toNat)) = ws.toList.zipIdx.map fun p => .wrw p.2 p.1.toNat := by
    rw [expand, Vector.toList_map, List.zipIdx_map, List.map_map]
    rfl
  rw [assembleSource, hlines]
  refine assembleLines_map _ _ _ fun p hp => ?_
  have hi : p.2 < 10 := by simpa using List.snd_lt_of_mem_zipIdx hp
  exact assemble_loadWord p.1 p.2 (by omega)

/-- The commands of LDHDR load the ten words. -/
theorem runAll_ldhdr (ws : Header) (s : State) :
    runAll (ws.toList.zipIdx.map loadWord) s = some { s with hdr := ws, rsp := some ⟨0, .ok⟩ } :=
  runAll_loadWord ws 10 0 rfl s (fun _ hj => absurd hj (Nat.not_lt_zero _)) fun h => absurd h (Nat.lt_irrefl 0)

/-- CLRHDR is LDHDR of ten zero words. -/
theorem expand_clrhdr : expand .clrhdr =
    expand (.ldhdr ((Vector.replicate 10 (0 : Word)).map BitVec.toNat)) := by
  rw [Vector.map_replicate]
  decide

/-! ### CSUM -/

/-- The closed form of R103: `ocsum` is the sum modulo 0xFFFF, with 0 only for the sum 0. -/
theorem ocsum_toNat (ws : List Word) : (ocsum ws).toNat = onesSum (exactSum ws) := by
  induction ws using List.reverseRecOn with
  | nil => rfl
  | append_singleton ws w ih =>
    have hw := w.isLt
    have hsum : exactSum (ws ++ [w]) = exactSum ws + w.toNat := by simp [exactSum]
    rw [ocsum_concat, ocadd_toNat, ih, hsum]
    simp only [onesSum]
    split <;> split <;> split <;> omega

theorem runCommand_sumadd_zextWord (w : Word) (s : State) :
    runCommand (encode (.sumadd (zextWord w))) s =
      .next (respond (zextWord (ocadd s.acc w)) { s with acc := ocadd s.acc w }) := by
  rw [runCommand_of_decode _ _ s (decodeOfEncodeIsTheInstruction (.sumadd (zextWord w)) rfl)]
  simp only [exec, execSumadd, fitsWord_zextWord, lowWord_zextWord, if_true]

/-- SUMADD of each word folds them into ACC and changes nothing else but the response. -/
theorem runAll_sumadd (ws : List Word) (s : State) :
    ∃ r, runAll (ws.map fun w => encode (.sumadd (zextWord w))) s =
      some { s with acc := ws.foldl ocadd s.acc, rsp := r } := by
  induction ws generalizing s with
  | nil => exact ⟨s.rsp, rfl⟩
  | cons w ws ih =>
    obtain ⟨r, hr⟩ := ih (respond (zextWord (ocadd s.acc w)) { s with acc := ocadd s.acc w })
    exact ⟨r, (runAll_cons _ _ s _ (runCommand_sumadd_zextWord w s)).trans hr⟩

/-- The commands of CSUM. -/
def sumCommands (ws : List Word) : List Command :=
  encode .sumclr :: ((ws.map fun w => encode (.sumadd (zextWord w))) ++ [encode .sumrd])

theorem assembleSource_csum (ws : List Word) :
    assembleSource (.pseudo (.csum (ws.map BitVec.toNat))) = some (sumCommands ws) := by
  have hadds : assembleLines ((ws.map BitVec.toNat).map AsmLine.sumadd) =
      some (ws.map fun w => encode (.sumadd (zextWord w))) := by
    rw [List.map_map]
    refine assembleLines_map ws _ _ fun w _ => ?_
    rw [Function.comp_apply, ← zextWord_toNat]
    exact assemble_sumadd (zextWord w)
  exact assembleLines_append [.sumclr] _ [encode .sumclr] _ rfl
    (assembleLines_append _ [.sumrd] _ [encode .sumrd] hadds rfl)

/-- The commands of CSUM leave the sum in ACC and answer with it and its complement. -/
theorem runAll_sumCommands (ws : List Word) (s : State) :
    runAll (sumCommands ws) s = some { s with acc := ocsum ws, rsp := some ⟨ocsum ws ++ ~~~ocsum ws, .ok⟩ } := by
  obtain ⟨r, hr⟩ := runAll_sumadd ws (respond 0 { s with acc := 0 })
  calc runAll (sumCommands ws) s
    _ = _ := runAll_cons _ _ s _ (runCommand_of_decode _ .sumclr s rfl)
    _ = _ := runAll_append _ [encode .sumrd] _ _ hr
    _ = _ := runAll_cons _ [] _ _ (runCommand_of_decode _ .sumrd _ rfl)

/-- Settles O58: the commands of each expansion, and what they do one after another. -/
theorem pseudoInstructionsDoWhatTheyName : Obligations.PseudoInstructionsDoWhatTheyName := by
  refine ⟨?ldhdr, ?clrhdr, ?csum⟩
  case ldhdr => exact fun ws s => ⟨_, _, assembleSource_ldhdr ws, runAll_ldhdr ws s, rfl⟩
  case clrhdr =>
    intro s
    have hcs : assembleSource (.pseudo .clrhdr) = _ :=
      (congrArg assembleLines expand_clrhdr).trans (assembleSource_ldhdr (Vector.replicate 10 0))
    exact ⟨_, _, hcs, runAll_ldhdr _ s, rfl⟩
  case csum =>
    exact fun ws s => ⟨_, _, ocsum ws, assembleSource_csum ws, runAll_sumCommands ws s, ocsum_toNat ws, rfl⟩

end Sys2Proof.Machine
end

section
/-! One's-complement sums on exact integers (40_checksum.md R100 to R104, R124): when two sums agree, the extreme values,
and the sums of permuted and of byte-swapped words. -/

namespace Sys2Proof.Machine

open Sys2Proof.Claims

/-! ## The closed form -/

/-- Two positive totals with the same remainder modulo 0xFFFF have the same one's-complement sum. -/
theorem onesSum_congr (m n : Nat) (hm : 0 < m) (hn : 0 < n) (hmod : m % 0xFFFF = n % 0xFFFF) :
    onesSum m = onesSum n := by
  rw [onesSum, onesSum, if_neg (by omega), if_neg (by omega)]
  omega

theorem onesSum_eq_zero_iff (n : Nat) : onesSum n = 0 ↔ n = 0 := by
  rw [onesSum]
  split <;> omega

theorem onesSum_eq_allOnes_iff (n : Nat) : onesSum n = 0xFFFF ↔ 0 < n ∧ n % 0xFFFF = 0 := by
  rw [onesSum]
  split <;> omega

theorem exactSum_perm (ws vs : List Word) (h : ws.Perm vs) : exactSum ws = exactSum vs :=
  (h.map BitVec.toNat).sum_nat

/-- The order of the words does not matter, for it does not matter to the exact sum. -/
theorem ocsum_perm (ws vs : List Word) (h : ws.Perm vs) : ocsum ws = ocsum vs := by
  apply BitVec.eq_of_toNat_eq
  rw [ocsum_toNat, ocsum_toNat, exactSum_perm ws vs h]

/-- Settles O31: by `ocsum_toNat`, and for permuted words because the exact sum is that of a permuted list. -/
theorem ocsumClosedForm : Obligations.OcsumClosedForm :=
  ⟨ocsum_toNat, ocsum_perm⟩

/-! ## The extreme values -/

theorem exactSum_eq_zero_iff (ws : List Word) : exactSum ws = 0 ↔ ∀ w ∈ ws, w = 0 := by
  simp [exactSum, List.sum_eq_zero_iff, BitVec.toNat_eq]

theorem ocsum_eq_zero_iff (ws : List Word) : ocsum ws = 0 ↔ ∀ w ∈ ws, w = 0 := by
  rw [← exactSum_eq_zero_iff, ← onesSum_eq_zero_iff, ← ocsum_toNat]
  exact BitVec.toNat_eq

theorem ocsum_eq_allOnes_iff (ws : List Word) : ocsum ws = 0xFFFF ↔ 0 < exactSum ws ∧ exactSum ws % 0xFFFF = 0 := by
  rw [← onesSum_eq_allOnes_iff, ← ocsum_toNat]
  exact BitVec.toNat_eq

/-- Settles O32: the closed form is 0 only for an exact sum of 0, and 0xFFFF only for a positive multiple of 0xFFFF. -/
theorem ocsumExtremeValues : Obligations.OcsumExtremeValues :=
  fun ws => ⟨ocsum_eq_zero_iff ws, ocsum_eq_allOnes_iff ws⟩

/-! ## Byte-swapped words -/

theorem swapBytes_toNat (w : Word) : (swapBytes w).toNat = w.toNat % 256 * 256 + w.toNat / 256 := by
  have hw := w.isLt
  simp only [swapBytes, BitVec.toNat_append, BitVec.extractLsb'_toNat, Nat.shiftRight_eq_div_pow, Nat.shiftLeft_eq]
  rw [Nat.mul_comm, ← Nat.two_pow_add_eq_or_of_lt (by omega)]
  omega

/-- The carries of either byte go around into the other one, so exchanging the bytes commutes with `ocadd`. -/
theorem ocadd_swapBytes (a w : Word) : ocadd (swapBytes a) (swapBytes w) = swapBytes (ocadd a w) := by
  have ha := a.isLt
  have hw := w.isLt
  apply BitVec.eq_of_toNat_eq
  rw [ocadd_toNat, swapBytes_toNat, swapBytes_toNat, swapBytes_toNat, ocadd_toNat]
  split <;> split <;> omega

/-- Settles O37: `swapBytes` commutes with `ocadd` and keeps 0, so it commutes with the fold. -/
theorem byteSwappedSum : Obligations.ByteSwappedSum := by
  intro ws
  have hzero : swapBytes 0 = 0 := by decide
  calc ocsum (ws.map swapBytes)
    _ = ws.foldl (fun a w => ocadd a (swapBytes w)) (swapBytes 0) := by rw [ocsum, List.foldl_map, hzero]
    _ = swapBytes (ocsum ws) := List.foldl_hom swapBytes ocadd_swapBytes

/-! ## The header's sum -/

theorem headerSum_toNat (h : Header) : (headerSum h).toNat = onesSum (wordSum h) := ocsum_toNat h.toList

/-- A header is valid exactly if its exact sum is a positive multiple of 0xFFFF (R104). -/
theorem headerSum_eq_allOnes_iff (h : Header) : headerSum h = 0xFFFF ↔ 0 < wordSum h ∧ wordSum h % 0xFFFF = 0 :=
  ocsum_eq_allOnes_iff h.toList

theorem forall_mem_toList_iff (h : Header) (p : Word → Prop) :
    (∀ w ∈ h.toList, p w) ↔ ∀ j : Fin 10, p h[j.val] := by
  simp only [Vector.mem_toList_iff, Vector.forall_mem_iff_forall_getElem, Fin.forall_iff]

theorem headerSum_eq_zero_iff (h : Header) : headerSum h = 0 ↔ ∀ j : Fin 10, h[j.val] = 0 :=
  (ocsum_eq_zero_iff h.toList).trans (forall_mem_toList_iff h (· = 0))

theorem wordSum_pos_iff (h : Header) : 0 < wordSum h ↔ ∃ j : Fin 10, h[j.val] ≠ 0 := by
  rw [Nat.pos_iff_ne_zero, wordSum, Ne, exactSum_eq_zero_iff, forall_mem_toList_iff, not_forall]

/-- Headers that are not all zero and whose exact sums agree modulo 0xFFFF have the same sum. -/
theorem headerSum_congr (h h' : Header) (hpos : 0 < wordSum h) (hpos' : 0 < wordSum h')
    (hmod : wordSum h % 0xFFFF = wordSum h' % 0xFFFF) : headerSum h = headerSum h' := by
  apply BitVec.eq_of_toNat_eq
  rw [headerSum_toNat, headerSum_toNat, onesSum_congr _ _ hpos hpos' hmod]

theorem exactSum_cons (w : Word) (ws : List Word) : exactSum (w :: ws) = w.toNat + exactSum ws := by
  simp [exactSum]

theorem exactSum_set (ws : List Word) (i : Nat) (hi : i < ws.length) (w : Word) :
    exactSum (ws.set i w) + ws[i].toNat = exactSum ws + w.toNat := by
  induction ws generalizing i with
  | nil => exact absurd hi (Nat.not_lt_zero i)
  | cons v vs ih =>
    cases i with
    | zero =>
      simp only [List.set_cons_zero, List.getElem_cons_zero, exactSum_cons]
      omega
    | succ i =>
      have hvs := ih i (Nat.lt_of_succ_lt_succ hi)
      simp only [List.set_cons_succ, List.getElem_cons_succ, exactSum_cons]
      omega

/-- What replacing one word does to the exact sum. -/
theorem wordSum_set (h : Header) (i : Nat) (hi : i < 10) (w : Word) :
    wordSum (h.set i w) + h[i].toNat = wordSum h + w.toNat := by
  rw [wordSum, Vector.toList_set]
  exact exactSum_set h.toList i (by simpa using hi) w

theorem header_toList (h : Header) :
    h.toList = [h[0], h[1], h[2], h[3], h[4], h[5], h[6], h[7], h[8], h[9]] := by
  apply List.ext_getElem (by simp)
  intro i hi _
  have hlt : i < 10 := by simpa using hi
  interval_cases i <;> rfl

/-- A zero word adds nothing to a sum. -/
theorem ocsum_zero_cons (ws : List Word) : ocsum (0 :: ws) = ocsum ws := by
  simp [ocsum]

/-- The header with word 5 zero sums as its other nine words do. -/
theorem headerSum_set_five_zero (h : Header) :
    headerSum (h.set 5 0) = ocsum [h[0], h[1], h[2], h[3], h[4], h[6], h[7], h[8], h[9]] := by
  have hperm : (h.set 5 0).toList.Perm (0 :: [h[0], h[1], h[2], h[3], h[4], h[6], h[7], h[8], h[9]]) := by
    rw [Vector.toList_set, header_toList]
    exact List.perm_middle (l₁ := [h[0], h[1], h[2], h[3], h[4]])
  rw [headerSum, ocsum_perm _ _ hperm, ocsum_zero_cons]

theorem headerSum_set_five_zero_eq_zero_iff (h : Header) :
    headerSum (h.set 5 0) = 0 ↔ ∀ j : Fin 10, j.val ≠ 5 → h[j.val] = 0 := by
  rw [headerSum_eq_zero_iff]
  refine forall_congr' fun j => ?_
  rw [Vector.getElem_set]
  split
  next hj => simp [← hj]
  next hj => simp [Ne.symm hj]

end Sys2Proof.Machine
end

section
/-! The checksum commands (40_checksum.md R110 to R115), each as its effect on the whole state and with its command words,
and what VALID answers about a header (R120 to R123). -/

namespace Sys2Proof.Machine

open Sys2Proof.Claims Sys2Proof.Laws

/-! ## The commands -/

/-- A word with a 1 above bit 3 is illegal for each opcode that uses no bit but its own (30_encoding.md R76). -/
theorem plainOpcode_of_mem (code : Nat) (hcode : code ∈ [0x0, 0x1, 0x2, 0x3, 0x4, 0x5, 0x6, 0xC]) :
    PlainOpcode code := by
  intro cmd opa opb s hop hne
  have hunused : UnusedBitSet cmd := .inl ⟨hop ▸ hcode, hne⟩
  exact (everyCommandHasExactlyOneFate ⟨cmd, opa, opb⟩ s).1 (.inr (.inl hunused))

/-- A word of an opcode and nothing else runs the instruction that the opcode reads from the operands. -/
theorem runCommand_of_eq_plainWord (code : Opcode) {cmd opa opb : Data} {i : Instr} {s : State}
    (hcmd : cmd = plainWord code) (hi : decodeOperands code ⟨cmd, opa, opb⟩ = .ok i) :
    runCommand ⟨cmd, opa, opb⟩ s = exec i s := by
  obtain ⟨hop, hclear⟩ := EncodedFormat.plainWord_format code
  rw [← hcmd] at hop hclear
  exact runCommand_of_decode _ i s ((decode_of_opcode _ code hop hclear).trans hi)

/-- Settles O19: SUMCLR's meaning, its one word, and the words of its opcode that are not legal. -/
theorem sumclrClearsAcc : Obligations.SumclrClearsAcc :=
  ⟨fun _ => rfl, fun _ _ _ => runCommand_of_eq_plainWord .sumclr (by decide) rfl,
    plainOpcode_of_mem 0x1 (by decide)⟩

theorem exec_sumadd_of_fits (opa : Data) (s : State) (hfit : fitsWord opa = true) :
    exec (.sumadd opa) s =
      .next (respond (zextWord (ocadd s.acc (lowWord opa))) { s with acc := ocadd s.acc (lowWord opa) }) :=
  congrArg _ (if_pos hfit)

/-- Settles O20: by cases on the operand check, with the sum of R101 from `ocadd_toNat`. -/
theorem sumaddAddsOneWord : Obligations.SumaddAddsOneWord := by
  refine ⟨fun opa s => ⟨?range, ?sum⟩, fun _ _ _ => runCommand_of_eq_plainWord .sumadd (by decide) rfl,
    plainOpcode_of_mem 0x2 (by decide)⟩
  case range => exact fun hwide => exec_of_not_operandFits (.sumadd opa) s rfl (beq_false_of_ne hwide)
  case sum =>
    exact fun hfit => ⟨_, ocadd_toNat s.acc (lowWord opa), exec_sumadd_of_fits opa s (beq_of_eq hfit)⟩

/-- Settles O21: SUMRD's meaning, its one word, and the words of its opcode that are not legal. -/
theorem sumrdAnswersAccAndComplement : Obligations.SumrdAnswersAccAndComplement :=
  ⟨fun _ => rfl, fun _ _ _ => runCommand_of_eq_plainWord .sumrd (by decide) rfl,
    plainOpcode_of_mem 0x3 (by decide)⟩

theorem exec_valid (s : State) :
    exec .valid s = .next (respond (zextBit (headerSum s.hdr == 0xFFFF#16)) (stateAfter .valid s)) := rfl

theorem exec_hcsum (s : State) :
    exec .hcsum s = .next (respond (zextWord (~~~headerSum s.hdr)) (stateAfter .hcsum s)) := rfl

theorem validAnswers_iff (s : State) (d : Data) :
    ValidAnswers s d ↔ zextBit (headerSum s.hdr == 0xFFFF#16) = d := by
  simp [ValidAnswers, exec_valid]

theorem validAnswers_one_iff (s : State) : ValidAnswers s 1 ↔ headerSum s.hdr = 0xFFFF := by
  rw [validAnswers_iff]
  by_cases hsum : headerSum s.hdr = 0xFFFF <;> simp [hsum, zextBit]

theorem validAnswers_zero_iff (s : State) : ValidAnswers s 0 ↔ headerSum s.hdr ≠ 0xFFFF := by
  rw [validAnswers_iff]
  by_cases hsum : headerSum s.hdr = 0xFFFF <;> simp [hsum, zextBit]

theorem zextWord_eq_zero_iff (w : Word) : zextWord w = 0 ↔ w = 0 := by
  rw [BitVec.toNat_eq, zextWord_toNat, BitVec.toNat_eq]
  rfl

/-- HCSUM answers 0 exactly for a header sum of all ones, whose complement is 0. -/
theorem hcsumAnswers_zero_iff (s : State) : HcsumAnswers s 0 ↔ headerSum s.hdr = 0xFFFF := by
  have hanswer : HcsumAnswers s 0 ↔ zextWord (~~~headerSum s.hdr) = 0 := by simp [HcsumAnswers, exec_hcsum]
  rw [hanswer, zextWord_eq_zero_iff, BitVec.not_eq_comm]
  rfl

/-- Settles O22: HCSUM leaves the header sum, in R103's closed form; it and VALID answer by the same condition. -/
theorem hcsumSumsTheHeader : Obligations.HcsumSumsTheHeader :=
  ⟨fun s => ⟨headerSum s.hdr, headerSum_toNat s.hdr, rfl⟩,
    fun s => (hcsumAnswers_zero_iff s).trans (validAnswers_one_iff s).symm,
    fun _ _ _ => runCommand_of_eq_plainWord .hcsum (by decide) rfl,
    plainOpcode_of_mem 0x4 (by decide)⟩

/-- Settles O24: the header sum in R103's closed form, and VALID's state for each result of its comparison. -/
theorem validChecksTheHeader : Obligations.ValidChecksTheHeader := by
  refine ⟨fun s => ⟨headerSum s.hdr, headerSum_toNat s.hdr, ?pass, ?fail⟩,
    fun _ _ _ => runCommand_of_eq_plainWord .valid (by decide) rfl,
    plainOpcode_of_mem 0x6 (by decide)⟩
  case pass =>
    intro hsum
    rw [exec_valid, stateAfter, (beq_of_eq hsum : (headerSum s.hdr == 0xFFFF#16) = true)]
    rfl
  case fail =>
    intro hsum
    rw [exec_valid, stateAfter, (beq_false_of_ne hsum : (headerSum s.hdr == 0xFFFF#16) = false)]
    rfl

theorem exec_assign (s : State) :
    exec .assign s = .next (respond (zextWord (~~~headerSum (s.hdr.set 5 0)))
      { s with hdr := s.hdr.set 5 (~~~headerSum (s.hdr.set 5 0)), acc := headerSum (s.hdr.set 5 0) }) := by
  simp only [exec, execAssign, assignChecksum_eq, getField_eq_fieldValue, fieldValue, Vector.getElem_set_self]
  rfl

/-- Settles O23: `exec_assign`, with the sum in R103's closed form. -/
theorem assignStoresTheChecksum : Obligations.AssignStoresTheChecksum :=
  ⟨fun s => ⟨headerSum (s.hdr.set 5 0), headerSum_toNat _, exec_assign s⟩,
    fun _ _ _ => runCommand_of_eq_plainWord .assign (by decide) rfl,
    plainOpcode_of_mem 0x5 (by decide)⟩

/-! ## Stored checksums -/

/-- A header validates once it holds its checksum: with word 5 the complement of the sum of the others, the exact sum is a
positive multiple of 0xFFFF. -/
theorem headerSum_assignChecksum (h : Header) : headerSum (assignChecksum h).1 = 0xFFFF := by
  have hset := wordSum_set (h.set 5 0) 5 (by decide) (~~~headerSum (h.set 5 0))
  have hsum := headerSum_toNat (h.set 5 0)
  rw [Vector.set_set, Vector.getElem_set_self, BitVec.toNat_not] at hset
  rw [assignChecksum_eq, headerSum_eq_allOnes_iff]
  have hzero : (0 : Word).toNat = 0 := rfl
  dsimp only
  unfold onesSum at hsum
  split at hsum <;> omega

/-- An ASSIGN or STAMP that ends with code OK leaves a header with its checksum stored. -/
theorem headerSum_stateAfter (i : Instr) (s : State) (hi : i = .assign ∨ isStamp i = true) :
    headerSum (stateAfter i s).hdr = 0xFFFF := by
  obtain rfl | hstamp := hi
  · exact headerSum_assignChecksum s.hdr
  · cases i with
    | stamp mf ttl dsz src dst => exact headerSum_assignChecksum (stampFields mf ttl dsz src dst s.idctr s.hdr)
    | _ => cases hstamp

/-- Settles O33: VALID and HCSUM look at the header alone, and the one stored has sum 0xFFFF. -/
theorem assignedHeaderStaysValid : Obligations.AssignedHeaderStaysValid := by
  intro i s t d hi hexec hok u hu
  obtain rfl := exec_eq_respond_of_ok i s t d hexec hok
  have hsum : headerSum u.hdr = 0xFFFF := by
    rw [hu]
    exact headerSum_stateAfter i s hi
  exact ⟨(validAnswers_one_iff u).mpr hsum, (hcsumAnswers_zero_iff u).mpr hsum⟩

/-! ## Single-bit errors -/

/-- Values with no common 1 bit have no bit that `xor` clears. -/
theorem xor_eq_or_of_and_eq_zero {n : Nat} (x y : BitVec n) (h : x &&& y = 0#n) : x ^^^ y = x ||| y := by
  have hbool : ∀ a b : Bool, (a && b) = false → (a ^^ b) = (a || b) := by decide
  apply BitVec.eq_of_getLsbD_eq
  intro j _
  rw [BitVec.getLsbD_xor, BitVec.getLsbD_or]
  exact hbool _ _ (by rw [← BitVec.getLsbD_and, h, BitVec.getLsbD_zero])

/-- Setting a clear bit adds its weight. -/
theorem toNat_xor_bit_of_clear (w : Word) (k : Nat) (hk : k < 16) (hclear : w.getLsbD k = false) :
    (w ^^^ (1#16 <<< k)).toNat = w.toNat + 2 ^ k := by
  have hand : w &&& (1#16 <<< k) = 0#16 := (BitVec.and_twoPow w k).trans (if_neg (by simp [hclear]))
  have hadd := congrArg BitVec.toNat (BitVec.add_eq_or_of_and_eq_zero _ _ hand)
  have hle : w.toNat ≤ (w ||| (1#16 <<< k)).toNat := BitVec.toNat_or _ _ ▸ Nat.left_le_or
  have hbit : (1#16 <<< k).toNat = 2 ^ k := BitVec.toNat_twoPow_of_lt hk
  have hlt : 2 ^ k < 2 ^ 16 := Nat.pow_lt_pow_right (by decide) hk
  rw [xor_eq_or_of_and_eq_zero _ _ hand]
  rw [BitVec.toNat_add, hbit] at hadd
  omega

/-- Inverting a bit adds its weight or takes it away. -/
theorem toNat_xor_bit (w : Word) (k : Nat) (hk : k < 16) :
    (w ^^^ (1#16 <<< k)).toNat = w.toNat + 2 ^ k ∨ w.toNat = (w ^^^ (1#16 <<< k)).toNat + 2 ^ k := by
  cases hbit : w.getLsbD k with
  | false => exact .inl (toNat_xor_bit_of_clear w k hk hbit)
  | true =>
    have hclear : (w ^^^ (1#16 <<< k)).getLsbD k = false := by simp [hbit, hk]
    have hback := toNat_xor_bit_of_clear _ k hk hclear
    rw [BitVec.xor_assoc, BitVec.xor_self, BitVec.xor_zero] at hback
    exact .inr hback

/-- Settles O34: the exact sum changes by a power of two below 0xFFFF, so it is no longer a multiple of 0xFFFF. -/
theorem singleBitErrorsAreDetected : Obligations.SingleBitErrorsAreDetected := by
  intro s i k hk hvalid
  rw [validAnswers_one_iff, headerSum_eq_allOnes_iff] at hvalid
  rw [validAnswers_zero_iff, Ne, headerSum_eq_allOnes_iff]
  dsimp only
  have hset := wordSum_set s.hdr i.val i.isLt (s.hdr[i.val] ^^^ (1#16 <<< k))
  have hbit := toNat_xor_bit s.hdr[i.val] k hk
  have hpos : 0 < 2 ^ k := Nat.two_pow_pos k
  have hle : 2 ^ k ≤ 2 ^ 15 := Nat.pow_le_pow_right (by decide) (Nat.le_of_lt_succ hk)
  omega

/-! ## The two zeros -/

/-- Exchanging the two zeros in one word keeps the sum of a header that is all zero neither before nor after. -/
theorem headerSum_set_other_zero (h : Header) (i : Fin 10) (b : Word)
    (hzeros : (h[i.val] = 0 ∧ b = 0xFFFF) ∨ (h[i.val] = 0xFFFF ∧ b = 0)) (hne : ∃ j : Fin 10, h[j.val] ≠ 0)
    (hne' : ∃ j : Fin 10, (h.set i.val b)[j.val] ≠ 0) : headerSum (h.set i.val b) = headerSum h := by
  have hset := wordSum_set h i.val i.isLt b
  apply headerSum_congr _ _ ((wordSum_pos_iff _).mpr hne') ((wordSum_pos_iff _).mpr hne)
  have hzero : (0 : Word).toNat = 0 := rfl
  have hones : (0xFFFF : Word).toNat = 0xFFFF := rfl
  obtain ⟨ha, rfl⟩ | ⟨ha, rfl⟩ := hzeros <;> rw [ha] at hset <;> omega

theorem wordSum_set_allOnes (h : Header) (i : Nat) (hi : i < 10) (hzero : h[i] = 0) :
    wordSum (h.set i 0xFFFF) = wordSum h + 0xFFFF := by
  have hset := wordSum_set h i hi 0xFFFF
  rw [hzero] at hset
  exact hset

/-- The checksum ASSIGN stores. -/
theorem exec_assign_csum (s t : State) (h : exec .assign s = .next t) : t.hdr[5] = ~~~headerSum (s.hdr.set 5 0) := by
  rw [exec_assign] at h
  cases h
  exact Vector.getElem_set_self (by decide)

theorem exec_assign_csum_eq_allOnes_iff (s t : State) (h : exec .assign s = .next t) :
    t.hdr[5] = 0xFFFF ↔ ∀ j : Fin 10, j.val ≠ 5 → s.hdr[j.val] = 0 := by
  rw [exec_assign_csum s t h, ← headerSum_set_five_zero_eq_zero_iff, BitVec.not_eq_comm]
  rfl

/-- Settles O35: exchanging the zeros changes the exact sum by 0xFFFF, and ASSIGN stores the complement of the sum of the
other nine words, which is 0xFFFF for the sum 0 and 0 for the sum 0xFFFF. -/
theorem theTwoZeros : Obligations.TheTwoZeros := by
  refine ⟨?exchange, fun h i => wordSum_set_allOnes h i.val i.isLt, ?csum,
    fun s t h => ⟨exec_assign_csum_eq_allOnes_iff s t h, ?zero⟩⟩
  case exchange =>
    rintro s i _ b d hzeros rfl hne hne'
    rw [validAnswers_iff, validAnswers_iff, headerSum_set_other_zero s.hdr i b hzeros hne hne']
  case csum =>
    intro s hvalid
    rw [validAnswers_one_iff, headerSum_eq_allOnes_iff] at hvalid ⊢
    have hset := wordSum_set_allOnes (s.hdr.set 5 0) 5 (by decide) (Vector.getElem_set_self (by decide))
    rw [Vector.set_set] at hset
    dsimp only at hvalid ⊢
    omega
  case zero =>
    rw [exec_assign_csum s t h, ← headerSum_set_five_zero, BitVec.not_eq_comm]
    rfl

/-- Settles O36: the sum of ten zero words is 0, and ASSIGN stores its complement. -/
theorem allZeroHeaderNeverValidates : Obligations.AllZeroHeaderNeverValidates := by
  intro s hzero
  have hsum : headerSum s.hdr = 0 := (headerSum_eq_zero_iff s.hdr).mpr hzero
  refine ⟨hsum, (validAnswers_zero_iff s).mpr (by rw [hsum]; decide), _, exec_assign s, ?csum, ?valid⟩
  case csum => exact (exec_assign_csum_eq_allOnes_iff s _ (exec_assign s)).mpr fun j _ => hzero j
  case valid => exact (assignedHeaderStaysValid .assign s _ _ (.inl rfl) (exec_assign s) rfl _ rfl).1

end Sys2Proof.Machine
end

section
/-! The header bit-packer commands (41_header_access.md R140 to R145): RDF, WRF, RDW and WRW, each as its effect on the
whole state and with its command words, and that none of them writes the checksum of its own accord. -/

namespace Sys2Proof.Machine

open Sys2Proof.Claims Sys2Proof.Laws

/-! ## Command words with a selector or an index -/

theorem runCommand_encode (i : Instr) (s : State) (hwf : i.wellFormed = true) : runCommand (encode i) s = exec i s :=
  runCommand_of_decode _ i s (decodeOfEncodeIsTheInstruction i hwf)

/-- The word of a command that reads no operand, with any operands (30_encoding.md R75). -/
theorem runCommand_encode_of_reads_none (i : Instr) (opa opb : Data) (s : State) (hwf : i.wellFormed = true)
    (hop : (opcodeOf i).number ∉ [0x2, 0x8, 0xA, 0xB, 0xC]) : runCommand ⟨(encode i).cmd, opa, opb⟩ s = exec i s := by
  rw [← op_encode] at hop
  exact ((ignoredOperandsHaveNoEffect _ _ _ _ _ s).1 hop).trans (runCommand_encode i s hwf)

/-- The word and first operand of a command other than STAMP, with any second operand (R75). -/
theorem runCommand_encode_of_ne_stamp (i : Instr) (opb : Data) (s : State) (hwf : i.wellFormed = true)
    (hop : (opcodeOf i).number ≠ 0xB) : runCommand ⟨(encode i).cmd, (encode i).opa, opb⟩ s = exec i s := by
  rw [← op_encode] at hop
  exact ((ignoredOperandsHaveNoEffect _ _ 0 _ _ s).2 hop).trans (runCommand_encode i s hwf)

/-- A word of RDF, WRF, RDW or WRW is illegal for a 1 above bit 7 (R76) and for what R77 lists. -/
theorem runCommand_of_bits_above_seven_or_listed {cmd opa opb : Data} {s : State} {p : Prop}
    (hop : op cmd ∈ [0x7, 0x8, 0x9, 0xA]) (hp : p → Listed cmd) (h : cmd.extractLsb' 8 24 ≠ 0 ∨ p) :
    runCommand ⟨cmd, opa, opb⟩ s = .next (afterIllegal s) :=
  (everyCommandHasExactlyOneFate ⟨cmd, opa, opb⟩ s).1
    (h.elim (fun hbits => .inr (.inl (.inr (.inl ⟨hop, hbits⟩)))) hp)

/-! ## Words -/

/-- Settles O27: RDW's meaning on either side of index 10, and its command words. -/
theorem rdwReadsOneWord : Obligations.RdwReadsOneWord := by
  refine ⟨exec_rdw_of_lt, ?noWord, ?word, ?illegal⟩
  case noWord => exact fun i s hi => congrArg _ (dif_neg (Nat.not_lt_of_le hi))
  case word =>
    exact fun i hi opa opb s =>
      runCommand_encode_of_reads_none (.rdw i) opa opb s (decide_eq_true hi) (by simp [opcodeOf, Opcode.number])
  case illegal =>
    exact fun cmd opa opb s hop =>
      runCommand_of_bits_above_seven_or_listed (by simp [hop]) fun hsel => by simp [Listed, hop, hsel]

/-- WRW of a value that fits writes that word whole (41_header_access.md R143). -/
theorem exec_wrw_of_fits (i : Fin 16) (w : Data) (s : State) (hi : i.val < 10) (hfit : fitsWord w = true) :
    exec (.wrw i w) s = .next (respond 0 { s with hdr := s.hdr.set i.val (lowWord w) }) :=
  congrArg Host.Outcome.next ((dif_pos hi).trans (if_pos hfit))

/-- Settles O28: WRW's meaning in the order of its checks, and its command words. -/
theorem wrwWritesOneWord : Obligations.WrwWritesOneWord := by
  refine ⟨fun i w s hi => ⟨?range, ?write⟩, ?noWord, ?word, ?illegal⟩
  case range =>
    exact fun hwide => exec_of_not_operandFits (.wrw i w) s (decide_eq_true hi) (beq_false_of_ne hwide)
  case write => exact fun hfit => exec_wrw_of_fits i w s hi (beq_of_eq hfit)
  case noWord => exact fun i w s hi => congrArg _ (dif_neg (Nat.not_lt_of_le hi))
  case word =>
    exact fun i hi opa opb s =>
      runCommand_encode_of_ne_stamp (.wrw i opa) opb s (decide_eq_true hi) (by simp [opcodeOf, Opcode.number])
  case illegal =>
    exact fun cmd opa opb s hop =>
      runCommand_of_bits_above_seven_or_listed (by simp [hop]) fun hsel => by simp [Listed, hop, hsel]

/-! ## Fields, IDCTR and STATUS -/

/-- STATUS as RDF reads it: V, ILL, RNG and CAP from bit 0 up (10_state.md R28). -/
theorem status_toBits_setWidth (st : Status) :
    st.toBits.setWidth 32 =
      BitVec.ofNat 32 (st.v.toNat + 2 * st.ill.toNat + 4 * st.rng.toNat + 8 * st.cap.toNat) := by
  obtain ⟨v, ill, rng, cap⟩ := st
  revert v ill rng cap
  decide

/-- What RDF reads is R21's column of words, IDCTR or the four STATUS bits (41_header_access.md R140). -/
theorem readSelector_eq_selectorValue (sl : Selector) (s : State) : readSelector sl s = selectorValue s sl := by
  cases sl with
  | field f => exact getField_eq_fieldValue s.hdr f
  | idctr => rfl
  | status => exact status_toBits_setWidth s.status

/-- Settles O25: RDF answers what its selector reads; its command words are those of R73's rows. -/
theorem rdfReadsWhatTheSelectorNames : Obligations.RdfReadsWhatTheSelectorNames := by
  refine ⟨?read, ?word, ?illegal⟩
  case read =>
    intro sl s
    rw [← readSelector_eq_selectorValue]
    rfl
  case word =>
    intro n sl hrow opa opb s
    obtain ⟨-, rfl⟩ := selectors_getElem?_eq_some n sl hrow
    exact runCommand_encode_of_reads_none (.rdf sl) opa opb s rfl (by simp [opcodeOf, Opcode.number])
  case illegal =>
    exact fun cmd opa opb s hop =>
      runCommand_of_bits_above_seven_or_listed (by simp [hop]) fun hsel => by simp [Listed, hop, hsel]

/-- WRF of a value that does not fit what the selector names (30_encoding.md R78). -/
theorem exec_wrf_of_width_le (sl : Selector) (v : Data) (s : State) (hw : sl.writable = true)
    (hwide : 2 ^ selectorWidth sl ≤ v.toNat) : exec (.wrf sl v) s = .next (afterRange s) :=
  exec_of_not_operandFits (.wrf sl v) s hw (decide_eq_false (Nat.not_lt_of_le hwide))

/-- WRF of a value that fits writes what the selector names and answers 0 (41_header_access.md R141). -/
theorem exec_wrf_of_lt_width (sl : Selector) (v : Data) (s : State) (hw : sl.writable = true)
    (hfit : v.toNat < 2 ^ selectorWidth sl) : exec (.wrf sl v) s = .next (respond 0 (writeSelector sl v s)) :=
  congrArg Host.Outcome.next ((if_pos hw).trans (if_pos (decide_eq_true hfit)))

/-- Settles O26: WRF by cases on what the selector names and on whether the value fits its width; its command words are
those of R73's rows before STATUS. -/
theorem wrfWritesExactlyTheField : Obligations.WrfWritesExactlyTheField := by
  refine ⟨?field, fun v s => ⟨?idctrRange, ?idctrWrite, rfl⟩, ?word, ?illegal⟩
  case field =>
    intro n f v s hrow
    obtain ⟨-, rfl⟩ := selectors_getElem?_eq_some n _ hrow
    rw [widths_getD_number, ← setField_eq_fieldWritten]
    exact ⟨exec_wrf_of_width_le (.field f) v s rfl, exec_wrf_of_lt_width (.field f) v s rfl⟩
  case idctrRange => exact exec_wrf_of_width_le .idctr v s rfl
  case idctrWrite => exact exec_wrf_of_lt_width .idctr v s rfl
  case word =>
    intro n sl hn hrow opa opb s
    obtain ⟨-, rfl⟩ := selectors_getElem?_eq_some n sl hrow
    have hw : sl.writable = true := by
      rw [← Bool.not_eq_false, selector_writable_eq_false_iff]
      omega
    exact runCommand_encode_of_ne_stamp (.wrf sl opa) opb s hw (by simp [opcodeOf, Opcode.number])
  case illegal =>
    exact fun cmd opa opb s hop =>
      runCommand_of_bits_above_seven_or_listed (by simp [hop]) fun hsel => by simp [Listed, hop, hsel]

/-! ## The checksum word -/

/-- A write of a field other than CSUM leaves word 5, whose bits all belong to CSUM (10_state.md R21). -/
theorem setField_getElem_five (h : Header) (f : Field) (v : Data) (hne : f ≠ .csum) : (setField h f v)[5] = h[5] :=
  BitVec.eq_of_getLsbD_eq fun b hb =>
    getLsbD_setField_of_not_covers h f v 5 b hb fun hcovers => hne (eq_fieldAt_of_covers f 5 b hcovers)

/-- WRW leaves every word but the one it names. -/
theorem stateAfter_wrw_getElem_of_ne (i : Fin 16) (w : Data) (s : State) (j : Nat) (hj : j < 10) (hne : j ≠ i.val) :
    (stateAfter (.wrw i w) s).hdr[j] = s.hdr[j] := by
  by_cases hi : i.val < 10
  · simp only [stateAfter_wrw_of_lt i w s hi]
    exact Vector.getElem_set_ne hi hj hne.symm
  · simp only [stateAfter, dif_neg hi]

/-- An instruction other than ASSIGN, STAMP, WRF CSUM and WRW 5 leaves word 5 (41_header_access.md R145). -/
theorem stateAfter_getElem_five (i : Instr) (s : State) (hassign : i ≠ .assign) (hstamp : isStamp i = false)
    (hwrf : ∀ v, i ≠ .wrf (.field .csum) v) (hwrw : ∀ w, i ≠ .wrw 5 w) : (stateAfter i s).hdr[5] = s.hdr[5] := by
  cases i with
  | assign => exact absurd rfl hassign
  | stamp => cases hstamp
  | nop | sumclr | sumadd | sumrd | hcsum | valid | rdf | rdw | dsteq => rfl
  | wrf sl v =>
    cases sl with
    | field f => exact setField_getElem_five s.hdr f v fun hf => hwrf v (by rw [hf])
    | idctr | status => rfl
  | wrw idx w =>
    refine stateAfter_wrw_getElem_of_ne idx w s 5 (by decide) fun hidx => ?_
    obtain rfl : idx = 5 := Fin.ext hidx.symm
    exact hwrw w rfl

/-- Settles O48: an error keeps the header, and `stateAfter` changes no word or bit but those the instruction names. -/
theorem noImplicitChecksumUpdate : Obligations.NoImplicitChecksumUpdate := by
  refine ⟨?checksum, ?words, ?fields⟩
  case checksum =>
    intro i s t h hassign hstamp hwrf hwrw
    obtain ⟨e, rfl⟩ | ⟨d, rfl⟩ := exec_eq_raiseError_or_respond i s t h
    · rfl
    · exact stateAfter_getElem_five i s hassign hstamp hwrf hwrw
  case words =>
    intro s t i w h j hne
    obtain ⟨e, rfl⟩ | ⟨d, rfl⟩ := exec_eq_raiseError_or_respond _ s t h
    · rfl
    · exact stateAfter_wrw_getElem_of_ne i w s j.val j.isLt hne
  case fields =>
    intro s t f v d h hok
    obtain rfl := exec_eq_respond_of_ok _ s t d h hok
    exact setField_eq_fieldWritten s.hdr f v

end Sys2Proof.Machine
end

section
/-! The packet container (42_container.md R170 to R175): the payload capacity, NOP, DSTEQ, and STAMP, whose header is
given once, word by word. -/

namespace Sys2Proof.Machine

open Sys2Proof.Claims

/-! ## The payload capacity, NOP and DSTEQ -/

/-- Settles O49: the capacity is a multiple of 8 within the bounds that a packet size carries. -/
theorem payloadCapacityBounds : Obligations.PayloadCapacityBounds := by
  intro size
  have hmin := size.atLeast
  have hmax := size.atMost
  have hle : payloadCap size ≤ size.bytes - 20 := Nat.div_mul_le_self ..
  have hmultiple : payloadCap size % 8 = 0 := Nat.mul_mod_left ..
  refine ⟨rfl, hmultiple, hle, ?_, ?_, hmax⟩ <;> omega

/-- Settles O18: NOP's meaning, its one word, and the words of its opcode that are not legal. -/
theorem nopChangesNothing : Obligations.NopChangesNothing :=
  ⟨fun _ => rfl, fun _ _ _ => runCommand_of_eq_plainWord .nop (by decide) rfl, plainOpcode_of_mem 0x0 (by decide)⟩

theorem exec_dsteq (a : Data) (s : State) :
    exec (.dsteq a) s = .next (respond (zextBit (s.hdr[8] ++ s.hdr[9] == a)) s) := rfl

/-- Settles O30: DSTEQ answers the comparison of words 8 and 9 with its operand; its one word, and the words of its opcode
that are not legal. -/
theorem dsteqComparesTheDestination : Obligations.DsteqComparesTheDestination := by
  refine ⟨fun a s => ⟨?equal, ?unequal⟩, fun _ _ _ => runCommand_of_eq_plainWord .dsteq (by decide) rfl,
    plainOpcode_of_mem 0xC (by decide)⟩
  case equal =>
    intro heq
    rw [exec_dsteq, beq_of_eq heq]
    rfl
  case unequal =>
    intro hne
    rw [exec_dsteq, beq_false_of_ne hne]
    rfl

/-! ## The header STAMP leaves -/

section
variable (mf : Bool) (ttl : Byte) (dsz : Word) (src dst : Data) (idctr : Word) (h : Header) (csum : Word)

/-- The header after STAMP's writes (R171), word by word, for any checksum word. -/
def stampedHeader : Header :=
  #v[h[0], 20 + dsz, idctr,
    h[3].extractLsb' 14 2 ++ BitVec.ofBool mf ++ h[3].extractLsb' 0 13,
    ttl ++ h[4].extractLsb' 0 8, csum,
    src.extractLsb' 16 16, src.extractLsb' 0 16, dst.extractLsb' 16 16, dst.extractLsb' 0 16]

/-- MF is bit 13 of word 3, between FLAGS[2:1] and FRAG (10_state.md R23). -/
theorem setMoreFragments_eq :
    setMoreFragments h mf = h.set 3 (h[3].extractLsb' 14 2 ++ BitVec.ofBool mf ++ h[3].extractLsb' 0 13) := by
  refine congrArg (h.set 3) (BitVec.eq_of_getLsbD_eq fun j hj => ?_)
  simp only [getLsbD_insertBits _ _ _ _ _ hj, BitVec.getLsbD_append, BitVec.getLsbD_extractLsb']
  obtain hlt | rfl | hgt := Nat.lt_trichotomy j 13
  · simp [hlt, Nat.not_le_of_lt hlt]
  · cases mf <;> rfl
  · obtain rfl | rfl : j = 14 ∨ j = 15 := by omega
    all_goals simp

/-- A zero-extended value is its low bits. -/
theorem extractLsb'_setWidth_data {n : Nat} (x : BitVec n) (hn : n ≤ 32) : (x.setWidth 32).extractLsb' 0 n = x := by
  rw [← BitVec.setWidth_eq_extractLsb' hn, BitVec.setWidth_setWidth_of_le _ hn, BitVec.setWidth_eq]

/-- STAMP's field writes with a checksum word after them give `stampedHeader`. -/
theorem stampFields_set_five :
    (stampFields mf ttl dsz src dst idctr h).set 5 csum = stampedHeader mf ttl dsz src dst idctr h csum := by
  simp (disch := decide) only [stampFields, setMoreFragments_eq, setField_eq_fieldWritten, fieldWritten, zextWord,
    extractLsb'_setWidth_data]
  apply Vector.ext
  intro j hj
  interval_cases j <;> simp [stampedHeader]

/-- STAMP stores the complement of the sum of its header with a zero checksum, and leaves that sum in ACC. -/
theorem assignChecksum_stampFields :
    assignChecksum (stampFields mf ttl dsz src dst idctr h) =
      (stampedHeader mf ttl dsz src dst idctr h (~~~headerSum (stampedHeader mf ttl dsz src dst idctr h 0)),
        headerSum (stampedHeader mf ttl dsz src dst idctr h 0)) := by
  rw [assignChecksum_eq, stampFields_set_five, stampFields_set_five]

/-- A STAMP within the capacity (R171). -/
theorem exec_stamp_of_le (s : State) (hcap : dsz.toNat ≤ payloadCap s.packetSize) :
    exec (.stamp mf ttl dsz src dst) s =
      let sum := headerSum (stampedHeader mf ttl dsz src dst s.idctr s.hdr 0)
      .next { s with
        hdr := stampedHeader mf ttl dsz src dst s.idctr s.hdr (~~~sum)
        acc := sum
        idctr := s.idctr + 1
        rsp := some ⟨s.idctr ++ ~~~sum, .ok⟩ } := by
  simp (disch := decide) only [exec, execStamp, if_neg (Nat.not_lt_of_le hcap), assignChecksum_stampFields,
    getField_eq_fieldValue, fieldValue, lowWord, extractLsb'_setWidth_data, respond]
  rfl

/-- A payload within the capacity leaves a total length that fits a word (R170). -/
theorem toNat_totalLength (size : PacketSize) (hcap : dsz.toNat ≤ payloadCap size) :
    (20 + dsz).toNat = 20 + dsz.toNat := by
  obtain ⟨-, -, -, -, hle, hmax⟩ := payloadCapacityBounds size
  have htwenty : (20 : Word).toNat = 20 := rfl
  rw [BitVec.toNat_add, htwenty]
  omega

/-- The fields STAMP does not name stand in `stampedHeader` as they stood before. -/
theorem getField_stampedHeader (f : Field) (hf : f ∈ [Field.ver, .hlen, .dscp, .ecn, .proto, .frag]) :
    getField (stampedHeader mf ttl dsz src dst idctr h csum) f = getField h f := by
  rw [getField_eq_fieldValue, getField_eq_fieldValue]
  cases f with
  | ver | hlen | dscp | ecn => rfl
  | proto | frag => exact congrArg (BitVec.setWidth 32) BitVec.extractLsb'_append_eq_right
  | tlen | id | flags | ttl | csum | src | dst => exact absurd hf (by decide)

/-- FLAGS[2] and FLAGS[1] stand above MF. -/
theorem getLsbD_getField_flags_stampedHeader (b : Nat) (hb : b = 1 ∨ b = 2) :
    (getField (stampedHeader mf ttl dsz src dst idctr h csum) .flags).getLsbD b = (getField h .flags).getLsbD b := by
  have hword : (stampedHeader mf ttl dsz src dst idctr h csum)[3] =
      h[3].extractLsb' 14 2 ++ BitVec.ofBool mf ++ h[3].extractLsb' 0 13 := rfl
  simp only [getField_eq_fieldValue, fieldValue, hword, BitVec.getLsbD_setWidth, BitVec.getLsbD_extractLsb',
    BitVec.getLsbD_append]
  obtain rfl | rfl := hb <;> simp

end

/-! ## STAMP -/

/-- A STAMP word with a 1 in bits 7 to 5 is illegal (30_encoding.md R76). -/
theorem runCommand_stamp_of_unused_bits (cmd opa opb : Data) (s : State) (hop : op cmd = 0xB)
    (hbits : cmd.extractLsb' 5 3 ≠ 0) : runCommand ⟨cmd, opa, opb⟩ s = .next (afterIllegal s) :=
  (everyCommandHasExactlyOneFate ⟨cmd, opa, opb⟩ s).1 (.inr (.inl (.inr (.inr ⟨hop, hbits⟩))))

/-- Settles O29: STAMP by cases on its capacity check, with the header sum in R103's closed form; its command words are
those of the encoder. -/
theorem stampWritesThePerPacketFields : Obligations.StampWritesThePerPacketFields := by
  refine ⟨fun mf ttl dsz src dst s => ⟨?capacity, ?stamp⟩, ?word, ?illegal⟩
  case capacity =>
    exact fun hover => exec_of_not_withinCapacity (.stamp mf ttl dsz src dst) s
      (decide_eq_false (Nat.not_le_of_lt hover))
  case stamp =>
    intro hcap
    have hnext : s.idctr + 1 = BitVec.ofNat 16 ((s.idctr.toNat + 1) % 2 ^ 16) :=
      BitVec.eq_of_toNat_eq (by simp [BitVec.toNat_add])
    refine ⟨20 + dsz, headerSum (stampedHeader mf ttl dsz src dst s.idctr s.hdr 0), ?_, ?_, ?_⟩
    · exact toNat_totalLength dsz s.packetSize hcap
    · exact headerSum_toNat (stampedHeader mf ttl dsz src dst s.idctr s.hdr 0)
    · rw [← hnext]
      exact exec_stamp_of_le mf ttl dsz src dst s hcap
  case word => exact fun mf ttl dsz src dst s => runCommand_encode (.stamp mf ttl dsz src dst) s rfl
  case illegal => exact runCommand_stamp_of_unused_bits

/-- Settles O50: an error keeps the header and V, and a STAMP that ends with code OK leaves `stampedHeader`. -/
theorem stampKeepsTheOtherFields : Obligations.StampKeepsTheOtherFields := by
  intro mf ttl dsz src dst s t h
  obtain ⟨e, rfl⟩ | ⟨d, rfl⟩ := exec_eq_raiseError_or_respond _ s t h
  · exact ⟨fun _ _ => rfl, rfl, rfl, status_record_v e s.status⟩
  · simp only [respond_hdr, stateAfter, assignChecksum_stampFields]
    exact ⟨fun f hf => getField_stampedHeader (hf := hf) .., getLsbD_getField_flags_stampedHeader (hb := .inr rfl) ..,
      getLsbD_getField_flags_stampedHeader (hb := .inl rfl) .., rfl⟩

/-! ## The identification sequence -/

/-- `n` consecutive identifications from `k` (R172). -/
def consecutiveIds (k : Word) (n : Nat) : List Word :=
  (List.range n).map fun j => BitVec.ofNat 16 ((k.toNat + j) % 65536)

theorem consecutiveIds_length (k : Word) (n : Nat) : (consecutiveIds k n).length = n := by
  rw [consecutiveIds, List.length_map, List.length_range]

theorem consecutiveIds_succ (k k' : Word) (n : Nat) (hk : k'.toNat = (k.toNat + 1) % 65536) :
    consecutiveIds k (n + 1) = k :: consecutiveIds k' n := by
  rw [consecutiveIds, List.range_succ_eq_map, List.map_cons, List.map_map]
  congr 1
  · rw [Nat.add_zero, Nat.mod_eq_of_lt k.isLt, BitVec.ofNat_toNat, BitVec.setWidth_eq]
  · refine List.map_congr_left fun j _ => congrArg (BitVec.ofNat 16) ?_
    omega

/-- One instruction of a list without WRF of IDCTR: a successful STAMP writes IDCTR into ID and steps it, and anything else
writes no identification and keeps IDCTR. -/
theorem exec_stampIds_cases (i : Instr) (is : List Instr) (s : State) (hi : ∀ v, i ≠ .wrf .idctr v) :
    ∃ t, exec i s = .next t ∧
      ((stampIds (i :: is) s = s.idctr :: stampIds is t ∧ t.idctr.toNat = (s.idctr.toNat + 1) % 65536) ∨
        (stampIds (i :: is) s = stampIds is t ∧ t.idctr = s.idctr)) := by
  obtain ⟨t, ht, -⟩ := exec_cases i s
  obtain ⟨hkeep, hok, hfail⟩ := onlyIdctrWritersChangeIdctr i s t ht
  refine ⟨t, ht, ?_⟩
  simp only [stampIds, ht]
  split
  next hsucc =>
    obtain ⟨hstamp, hcode⟩ := hsucc
    obtain ⟨⟨d, _⟩, hrsp, rfl⟩ := Option.map_eq_some_iff.mp hcode
    obtain ⟨hid, hnext⟩ := hok hstamp ⟨d, hrsp⟩
    exact .inl ⟨by rw [hid], hnext⟩
  next hnot =>
    refine .inr ⟨rfl, ?_⟩
    cases i with
    | stamp mf ttl dsz src dst => exact hfail rfl fun d hrsp => hnot ⟨rfl, by rw [hrsp]; rfl⟩
    | wrf sl v =>
      cases sl with
      | idctr => exact absurd rfl (hi v)
      | field | status => exact hkeep rfl
    | nop | sumclr | sumadd | sumrd | hcsum | assign | valid | rdf | rdw | wrw | dsteq => exact hkeep rfl

/-- The successful STAMPs of a list without WRF of IDCTR write consecutive identifications, and IDCTR ends after the last. -/
theorem exists_stampIds_eq_consecutiveIds (is : List Instr) (s : State) (hno : ∀ v, Instr.wrf .idctr v ∉ is) :
    ∃ n t, stampIds is s = consecutiveIds s.idctr n ∧ execAll is s = some t ∧
      t.idctr.toNat = (s.idctr.toNat + n) % 65536 := by
  induction is generalizing s with
  | nil => exact ⟨0, s, rfl, rfl, (Nat.mod_eq_of_lt s.idctr.isLt).symm⟩
  | cons i is ih =>
    obtain ⟨u, hu, hids⟩ := exec_stampIds_cases i is s fun v hv => hno v (hv ▸ List.mem_cons_self)
    obtain ⟨n, t, hrest, hrun, hlast⟩ := ih u fun v hv => hno v (List.mem_cons_of_mem i hv)
    have hall : execAll (i :: is) s = some t := by simp only [execAll, hu, hrun]
    obtain ⟨hcons, hstep⟩ | ⟨hsame, hkeep⟩ := hids
    · refine ⟨n + 1, t, ?_, hall, ?_⟩
      · rw [hcons, hrest, consecutiveIds_succ s.idctr u.idctr n hstep]
      · omega
    · exact ⟨n, t, by rw [hsame, hrest, hkeep], hall, by rw [hlast, hkeep]⟩

/-- Settles O51: the number of identifications is the length of their list; after reset IDCTR is the draw. -/
theorem identificationSequence : Obligations.IdentificationSequence := by
  refine ⟨fun is s hno => ?_, rfl⟩
  obtain ⟨n, t, hids, hrun, hlast⟩ := exists_stampIds_eq_consecutiveIds is s hno
  rw [hids, consecutiveIds_length]
  exact ⟨rfl, t, hrun, hlast⟩

end Sys2Proof.Machine
end

section
/-! Errors (60_exceptions.md R200 to R209): an error is its sticky bit and its response and nothing else, no step stops the
block, and the sticky bits tell which steps and runs have had an error. -/

namespace Sys2Proof.Machine

open Sys2Proof.Claims

/-! ## One step is one action of the host -/

/-- A step is an action of the host, in the state with the list's head taken off: none is presented, or one of the list. -/
theorem exists_step_eq_runEvent (s : State) :
    ∃ e, step s = runEvent e { s with port := s.port.tail } ∧ (e = .idle ∨ e ∈ s.port) := by
  cases hp : s.port with
  | nil =>
    have hsame : { s with port := [] } = s := by rw [← hp]
    refine ⟨.idle, ?_, .inl rfl⟩
    rw [step_nil s hp, List.tail_nil, hsame]
    rfl
  | cons e rest => exact ⟨e, step_cons s e rest hp, .inr List.mem_cons_self⟩

/-- Settles O8: a step is an action of the host, and each of those leads to a next state. -/
theorem theBlockNeverHalts : Obligations.TheBlockNeverHalts := by
  intro s
  obtain ⟨e, hstep, -⟩ := exists_step_eq_runEvent s
  rw [hstep]
  exact exists_runEvent_eq_next e _

/-! ## The two ways a command ends -/

theorem runCommand_eq_raiseError_or_endsWell (c : Command) (s t : State) (h : runCommand c s = .next t) :
    (∃ e, t = raiseError e s) ∨ EndsWell s t := by
  obtain ⟨u, hu, hcases⟩ := runCommand_cases c s
  obtain rfl : u = t := Host.Outcome.next.inj (hu.symm.trans h)
  exact hcases

/-- A command whose response has another code than OK. -/
theorem runCommand_eq_raiseError_of_code_ne_ok (c : Command) (s t : State) (r : Response)
    (h : runCommand c s = .next t) (hrsp : t.rsp = some r) (hcode : r.code ≠ .ok) : ∃ e, t = raiseError e s := by
  obtain he | ⟨d, hok, -⟩ := runCommand_eq_raiseError_or_endsWell c s t h
  · exact he
  · rw [hok] at hrsp
    cases hrsp
    exact absurd rfl hcode

/-- The block answers every command, in every state (R208). -/
theorem exists_runCommand_rsp_isSome (c : Command) (s : State) :
    ∃ t, runCommand c s = .next t ∧ t.rsp.isSome = true := by
  obtain ⟨t, ht, -⟩ := runCommand_cases c s
  exact ⟨t, ht, runCommand_rsp_isSome c s t ht⟩

/-- Settles O7: such a command ends with `raiseError` of one of the three errors, whose code is that error's alone. -/
theorem errorsChangeOnlyTheirStickyBit : Obligations.ErrorsChangeOnlyTheirStickyBit := by
  intro c s t r h hrsp hcode
  obtain ⟨e, rfl⟩ := runCommand_eq_raiseError_of_code_ne_ok c s t r h hrsp hcode
  cases hrsp
  have hnext := fun c' => exists_runCommand_rsp_isSome c' (raiseError e s)
  cases e with
  | illegal => exact ⟨fun _ => rfl, nofun, nofun, rfl, hnext⟩
  | range => exact ⟨nofun, fun _ => rfl, nofun, rfl, hnext⟩
  | capacity => exact ⟨nofun, nofun, fun _ => rfl, rfl, hnext⟩

/-! ## The invariant of the response port -/

theorem errorRecorded_of_rsp_none (s : State) (h : s.rsp = none) : ErrorRecorded s := by
  intro r e hr _
  cases h.symm.trans hr

theorem errorRecorded_of_rsp_ok (s : State) (d : Data) (h : s.rsp = some ⟨d, .ok⟩) : ErrorRecorded s := by
  intro r e hr he
  cases h.symm.trans hr
  cases he

/-- The error that an error's response code reports is that error. -/
@[simp] theorem errorCode_code_error (e : ErrorCode) : e.code.error = some e := by cases e <;> rfl

theorem errorRecorded_raiseError (e : ErrorCode) (s : State) : ErrorRecorded (raiseError e s) := by
  intro r e' hr he
  cases hr
  obtain rfl : e = e' := Option.some.inj ((errorCode_code_error e).symm.trans he)
  exact ⟨rfl, status_sticky_record_self e s.status⟩

/-- Every action of the host leaves the response port as the invariant says, whatever it showed before. -/
theorem errorRecorded_of_runEvent (ev : HostEvent) (s t : State) (h : runEvent ev s = .next t) : ErrorRecorded t := by
  cases ev with
  | idle => cases h; exact errorRecorded_of_rsp_none _ (clearResponse_rsp s)
  | reset => cases h; exact errorRecorded_of_rsp_none _ (applyReset_rsp s)
  | command c =>
    obtain ⟨e, rfl⟩ | ⟨d, hok, -⟩ := runCommand_eq_raiseError_or_endsWell c s t h
    · exact errorRecorded_raiseError e s
    · exact errorRecorded_of_rsp_ok t d hok

/-- Settles O10: a step replaces the response, so the new one meets the invariant by `errorRecorded_of_runEvent`; the old
one's invariant is not needed. -/
theorem stepKeepsErrorsRecorded : Obligations.StepKeepsErrorsRecorded := by
  intro s t _ h
  obtain ⟨e, hstep, -⟩ := exists_step_eq_runEvent s
  exact errorRecorded_of_runEvent e _ t (hstep.symm.trans h)

/-! ## Clean steps and clean runs -/

theorem clean_iff (s : State) : s.clean ↔ ∀ e, s.status.sticky e = false := by
  constructor
  · rintro ⟨hill, hrng, hcap⟩ (_ | _ | _)
    exacts [hill, hrng, hcap]
  · exact fun h => ⟨h .illegal, h .range, h .capacity⟩

theorem not_clean_raiseError (e : ErrorCode) (s : State) : ¬ (raiseError e s).clean := by
  intro h
  have hclear := (clean_iff _).mp h e
  simp at hclear

theorem clean_congr (s t : State) (h : ∀ e, t.status.sticky e = s.status.sticky e) : t.clean ↔ s.clean := by
  simp only [clean_iff, h]

/-- The response the state shows, if any, has code OK. -/
def ShowsNoError (s : State) : Prop := ∀ r, s.rsp = some r → r.code = .ok

theorem showsNoError_of_rsp_none (s : State) (h : s.rsp = none) : ShowsNoError s := by
  intro r hr
  cases h.symm.trans hr

theorem showsNoError_of_rsp_ok (s : State) (d : Data) (h : s.rsp = some ⟨d, .ok⟩) : ShowsNoError s := by
  intro r hr
  cases h.symm.trans hr
  rfl

theorem not_showsNoError_raiseError (e : ErrorCode) (s : State) : ¬ ShowsNoError (raiseError e s) :=
  fun h => errorCode_code_ne_ok e (h _ (raiseError_rsp e s))

/-- An action other than reset leaves a clean state exactly if it found one and gave no error. -/
theorem clean_iff_of_runEvent (ev : HostEvent) (s t : State) (hev : ev ≠ .reset) (h : runEvent ev s = .next t) :
    t.clean ↔ s.clean ∧ ShowsNoError t := by
  cases ev with
  | idle =>
    cases h
    exact (and_iff_left (showsNoError_of_rsp_none _ (clearResponse_rsp s))).symm
  | command c =>
    obtain ⟨e, rfl⟩ | ⟨d, hok, hkeep⟩ := runCommand_eq_raiseError_or_endsWell c s t h
    · exact iff_of_false (not_clean_raiseError e s) fun hboth => not_showsNoError_raiseError e s hboth.2
    · rw [clean_congr s t hkeep, and_iff_left (showsNoError_of_rsp_ok t d hok)]
  | reset => exact absurd rfl hev

/-- From a clean state a step leaves a clean one exactly if it gives no error, reset included. -/
theorem clean_iff_of_step_of_clean (s t : State) (hs : s.clean) (h : step s = .next t) : t.clean ↔ ShowsNoError t := by
  obtain ⟨e, hstep, -⟩ := exists_step_eq_runEvent s
  have hev := hstep.symm.trans h
  by_cases he : e = .reset
  · subst he
    cases hev
    exact iff_of_true ⟨rfl, rfl, rfl⟩ (showsNoError_of_rsp_none _ (applyReset_rsp _))
  · exact (clean_iff_of_runEvent e _ t he hev).trans (and_iff_right hs)

/-- A step of a host that presents no reset leaves a clean state exactly if it found one and gave no error. -/
theorem clean_iff_of_step (s t : State) (hno : .reset ∉ s.port) (h : step s = .next t) :
    t.clean ↔ s.clean ∧ ShowsNoError t := by
  obtain ⟨e, hstep, hmem⟩ := exists_step_eq_runEvent s
  have hne : e ≠ .reset := by
    rintro rfl
    obtain hidle | hin := hmem
    · cases hidle
    · exact hno hin
  exact clean_iff_of_runEvent e { s with port := s.port.tail } t hne (hstep.symm.trans h)

theorem runResponses_succ (n : Nat) (s t : State) (h : step s = .next t) :
    runResponses (n + 1) s = t.rsp.toList ++ runResponses n t := by
  simp only [runResponses, h]

/-- The responses of `n + 1` steps are OK exactly if the first step's is and those of the other steps are. -/
theorem forall_mem_runResponses_succ (n : Nat) (s t : State) (h : step s = .next t) :
    (∀ r ∈ runResponses (n + 1) s, r.code = .ok) ↔ ShowsNoError t ∧ ∀ r ∈ runResponses n t, r.code = .ok := by
  simp only [runResponses_succ n s t h, List.forall_mem_append, Option.mem_toList, ShowsNoError]

/-- A run without reset ends in a clean state exactly if it began in one and had no error: by induction on the steps, for
any state to begin with. -/
theorem clean_iff_of_run (n : Nat) (s t : State) (hno : .reset ∉ s.port) (h : core.run n s = .next t) :
    t.clean ↔ s.clean ∧ ∀ r ∈ runResponses n s, r.code = .ok := by
  induction n generalizing s with
  | zero =>
    cases h
    exact (and_iff_left nofun).symm
  | succ n ih =>
    obtain ⟨u, hu⟩ := theBlockNeverHalts s
    rw [core_run_succ n s u hu] at h
    have hport : .reset ∉ u.port := by
      rw [(stepTakesOneActionAndKeepsThePacketSize s u hu).1]
      exact fun hmem => hno (List.mem_of_mem_tail hmem)
    rw [ih u hport h, clean_iff_of_step s u hno hu, forall_mem_runResponses_succ n s u hu, and_assoc]

/-- Settles O12: the step clause, and the run clause from a state known to be clean. -/
theorem cleanRunsAreThoseWithoutErrors : Obligations.CleanRunsAreThoseWithoutErrors :=
  ⟨clean_iff_of_step_of_clean, fun n s t hs hno h => (clean_iff_of_run n s t hno h).trans (and_iff_right hs)⟩

end Sys2Proof.Machine
end

section
/-! Reset and the hazards of ACC (70_reset_and_hazards.md R230, R231, R235): the registers a reset leaves, at the command port
and behind the pins, and a stream sum restarted from its saved raw sum. -/

namespace Sys2Proof.Machine

open Sys2Proof.Claims

/-! ## The reset values -/

/-- Whatever its draws, a reset shows HDR_INIT on `hdr_out`. -/
@[simp] theorem resetWith_hdrOut (hdrInit : BitVec 160) (idInit : Word) (size : PacketSize) (port : List HostEvent)
    (n : Nat) : (State.resetWith hdrInit idInit size port n).hdrOut = hdrInit :=
  headerBits_headerOfBits hdrInit

/-- A later reset shows the next draw of HDR_INIT on `hdr_out`. -/
@[simp] theorem applyReset_hdrOut (s : State) : (applyReset s).hdrOut = Config.hdrInit (s.resetCount + 1) :=
  resetWith_hdrOut _ _ _ _ _

/-- Settles O11: a reset shows no response. -/
theorem errorsRecordedAtReset : Obligations.ErrorsRecordedAtReset :=
  ⟨errorRecorded_of_rsp_none _ rfl, fun s => errorRecorded_of_rsp_none _ (applyReset_rsp s)⟩

/-- Settles O16: `hdr_out` gives back the bits the header is made of; the other registers hold their values as they are. -/
theorem resetValues : Obligations.ResetValues :=
  ⟨fun hdrInit idInit size port n => ⟨resetWith_hdrOut hdrInit idInit size port n, rfl, rfl, rfl, rfl⟩,
    resetWith_hdrOut _ _ _ _ _, rfl, rfl, rfl, rfl, rfl, rfl⟩

/-- Settles O17: such a step is `applyReset` of the state with the reset taken off the list. -/
theorem resetStepGivesResetValues : Obligations.ResetStepGivesResetValues := by
  intro s rest hport
  exact ⟨applyReset { s with port := rest }, step_cons s .reset rest hport, rfl, rfl, rfl,
    applyReset_hdrOut { s with port := rest }, rfl, rfl, rfl, rfl⟩

/-! ## Reset behind the pins -/

/-- A command presented at an edge with `rst` low is accepted when nothing is in progress. -/
theorem clocked_accepts_of_free (q : Pins) (b : Clocked) (hfree : b.inFlight = none) (hrst : q.rst = false)
    (hvalid : q.cmdValid = true) : b.accepts q = true := by
  have hready : b.cmdReady q.rst = true := by rw [hrst, clocked_cmdReady_no_rst, hfree, Option.isNone_none]
  exact (clocked_accepts_iff q b).mpr ⟨hvalid, hready, hrst⟩

/-- No command is accepted at an edge with `rst` high. -/
theorem clocked_accepts_rst (p : Pins) (b : Clocked) (hrst : p.rst = true) : b.accepts p = false := by
  rw [Clocked.accepts, hrst, Bool.not_true, Bool.false_and, Bool.false_and]

/-- Settles O54: `clocked_edge_rst`, whose result holds the reset values, shows no response and has nothing in progress. -/
theorem resetAbandonsTheCommandInProgress : Obligations.ResetAbandonsTheCommandInProgress := by
  intro latency b p hrst
  refine ⟨clocked_accepts_rst p b hrst, ?ready, ?valid, ⟨applyReset b.block, none⟩, clocked_edge_rst latency p b hrst,
    rfl, ?stays, ⟨b.block.resetCount + 1, applyReset_hdrOut b.block, rfl⟩, rfl, rfl, ?next⟩
  case ready => rw [hrst, clocked_cmdReady_rst]
  case valid => rw [hrst, clocked_rspValid_rst]
  case stays => exact fun rst => clocked_rspValid_of_rsp_none rst _ (applyReset_rsp b.block)
  case next => exact fun q => clocked_accepts_of_free q _ rfl

/-! ## The shared accumulator -/

theorem execAll_cons (i : Instr) (is : List Instr) (s t : State) (h : exec i s = .next t) :
    execAll (i :: is) s = execAll is t := by
  simp only [execAll, h]

/-- The raw sum stands in the high word of SUMRD's answer (40_checksum.md R112). -/
theorem extractLsb'_high_of_sumrd (s : State) (d : Data) (h : exec .sumrd s = .next { s with rsp := some ⟨d, .ok⟩ }) :
    d.extractLsb' 16 16 = s.acc := by
  cases h
  exact BitVec.extractLsb'_append_eq_left

/-- SUMCLR and SUMADD of one word leave that word in ACC. -/
theorem execAll_sumclr_sumadd (w : Word) (u : State) :
    execAll [.sumclr, .sumadd (zextWord w)] u = some (respond (zextWord w) { u with acc := w }) := by
  have hadd := exec_sumadd_of_fits (zextWord w) (respond 0 { u with acc := 0 }) (fitsWord_zextWord w)
  have hsum : ocadd (respond 0 { u with acc := 0 }).acc (lowWord (zextWord w)) = w := by
    rw [lowWord_zextWord]
    exact ocadd_zero_left w
  rw [hsum] at hadd
  exact (execAll_cons .sumclr _ u _ rfl).trans (execAll_cons _ [] _ _ hadd)

/-- Settles O38: the saved word is ACC as it was at the SUMRD, and a sum of one word is that word. -/
theorem streamSumRestartsFromSavedRawSum : Obligations.StreamSumRestartsFromSavedRawSum := by
  intro s u d h
  rw [extractLsb'_high_of_sumrd s d h]
  exact ⟨_, execAll_sumclr_sumadd s.acc u, rfl, rfl, rfl, rfl⟩

end Sys2Proof.Machine
end
